-- ==== Sys2Proof/Word.lean ====
section
/-! DEFINITION. The word types of the AFE, and what a binary32 word stands for. -/

namespace Sys2Proof

/-- One 32-bit word: a sample, a parameter register, an operand field or a buffer slot (R11, R33). -/
abbrev Word := BitVec 32

/-- One 96-bit command word (R49). -/
abbrev Command := BitVec 96

/-- One 64-bit response word (R54). -/
abbrev Response := BitVec 64

/-- One byte of a byte transport (R37). -/
abbrev Byte := BitVec 8

/-- What a binary32 word stands for (R11). The magnitude of a finite value is counted in units of
`2^-149`, the smallest subnormal: every finite binary32 value is a whole number of those units. -/
inductive Datum where
  | nan
  | infinite (neg : Bool)
  | finite (neg : Bool) (mag : Nat)
  deriving DecidableEq, Repr

end Sys2Proof
end

