-- ==== Sys2Proof/Syntax.lean ====
section
/-! DEFINITION. The commands of AFE-CMD version 1, one constructor per row of the opcode table (R2, R52). -/

namespace Sys2Proof

/-- A command with its operands (R51). Binary32 operands are bit patterns, and every pattern is legal;
the capacity is an unsigned integer (R50), bounded in WellFormed.lean. -/
inductive Instr where
  /-- CREATE: `cap`, `A` = initial_delay, `B` = initial_gain (R59). -/
  | create (cap : Nat) (initialDelay initialGain : Word)
  /-- PROCESS: `A` = input sample (R61). -/
  | process (input : Word)
  /-- SET_DELAY: `A` = new_delay (R72). -/
  | setDelay (newDelay : Word)
  /-- SET_GAIN: `A` = new_gain (R73). -/
  | setGain (newGain : Word)
  /-- SET_SMOOTHING: `A` = factor (R74). -/
  | setSmoothing (factor : Word)
  /-- DESTROY: no operand (R60). -/
  | destroy
  deriving DecidableEq, Repr

end Sys2Proof
end

