-- ==== Sys2Proof/WellFormed.lean ====
section
/-! DEFINITION. Which instructions the encoding can carry. -/

namespace Sys2Proof

/-- The capacity field holds `0 .. 2^24 - 1` (R50, R56). Every other operand is a whole 32-bit pattern, and
"Any 32-bit pattern is a legal A or B where the table names a value" (R51). -/
def Instr.wellFormed : Instr → Bool
  | .create cap _ _ => decide (cap < 2 ^ 24)
  | .process _ => true
  | .setDelay _ => true
  | .setGain _ => true
  | .setSmoothing _ => true
  | .destroy => true

end Sys2Proof
end

