-- ==== Sys2Proof/Decode.lean ====
section
/-! DEFINITION. The command word: field extraction, the decoder (total, rejecting by name), the encoder, the
opcode table as data, and the byte transport. -/

namespace Sys2Proof

/-- `op = cmd[3:0]` (R50). -/
def opField (w : Command) : BitVec 4 := w.extractLsb' 0 4

/-- `rsv = cmd[7:4]` (R50). -/
def rsvField (w : Command) : BitVec 4 := w.extractLsb' 4 4

/-- `cap = cmd[31:8]` (R50). -/
def capField (w : Command) : BitVec 24 := w.extractLsb' 8 24

/-- `A = cmd[63:32]` (R50). -/
def aField (w : Command) : Word := w.extractLsb' 32 32

/-- `B = cmd[95:64]` (R50). -/
def bField (w : Command) : Word := w.extractLsb' 64 32

/-- Why a word is illegal (R53). The AFE answers every one of them with ILLEGAL_COMMAND (R79); the names are
the decoder's. -/
inductive Illegal where
  /-- `op` is 0x0 or in 0x7 to 0xF. -/
  | reservedOpcode
  /-- `rsv != 0`. -/
  | reservedField
  /-- `cap != 0` where it must be 0. -/
  | capacityNotZero
  /-- `A != 0` where it must be 0. -/
  | operandANotZero
  /-- `B != 0` where it must be 0. -/
  | operandBNotZero
  deriving DecidableEq, Repr

/-- The commands that use only `A`: `cap` and `B` must be 0 (R51). -/
def decodeOneOperand (w : Command) (i : Word → Instr) : Except Illegal Instr :=
  if capField w ≠ 0#24 then .error .capacityNotZero
  else if bField w ≠ 0#32 then .error .operandBNotZero
  else .ok (i (aField w))

/-- The command without operands: `cap`, `A` and `B` must be 0 (R51, R60). -/
def decodeNoOperand (w : Command) (i : Instr) : Except Illegal Instr :=
  if capField w ≠ 0#24 then .error .capacityNotZero
  else if aField w ≠ 0#32 then .error .operandANotZero
  else if bField w ≠ 0#32 then .error .operandBNotZero
  else .ok i

/-- The decoder: every word is exactly one legal command or illegal (R52, R53). -/
def decode (w : Command) : Except Illegal Instr :=
  if rsvField w ≠ 0#4 then .error .reservedField
  else if opField w = 0x1#4 then .ok (.create (capField w).toNat (aField w) (bField w))
  else if opField w = 0x2#4 then decodeOneOperand w .process
  else if opField w = 0x3#4 then decodeOneOperand w .setDelay
  else if opField w = 0x4#4 then decodeOneOperand w .setGain
  else if opField w = 0x5#4 then decodeOneOperand w .setSmoothing
  else if opField w = 0x6#4 then decodeNoOperand w .destroy
  else .error .reservedOpcode

/-- A command word from its fields, most significant first: `{B, A, cap, rsv, op}` (R49). -/
def packCommand (b a : Word) (cap : BitVec 24) (op : BitVec 4) : Command :=
  b ++ a ++ cap ++ 0#4 ++ op

/-- The encoder: "places `cap`, `A` and `B` as rule R51 says and writes 0 to every field a command does not
use" (R56; the encoding summary of 30_encoding.md). -/
def encode : Instr → Command
  | .create cap d g => packCommand g d (BitVec.ofNat 24 cap) 0x1#4
  | .process x => packCommand 0#32 x 0#24 0x2#4
  | .setDelay d => packCommand 0#32 d 0#24 0x3#4
  | .setGain g => packCommand 0#32 g 0#24 0x4#4
  | .setSmoothing f => packCommand 0#32 f 0#24 0x5#4
  | .destroy => packCommand 0#32 0#32 0#24 0x6#4

/-- The instruction the decoder reads from an opcode-table word: `nbits` bits of `w`, every bit above them 0.
A command has one length, 96 bits (R55). -/
def decodeTableWord (nbits w : Nat) : Option Instr :=
  match decode (BitVec.ofNat 96 (w % 2 ^ nbits)) with
  | .ok i => some i
  | .error _ => none

/-- PROCESS_BLOCK: "expands to `n` PROCESS commands, one per operand, in operand order" (R57). -/
def processBlockWords (samples : List Word) : List Command :=
  samples.map fun x => encode (.process x)

/-- One row of the opcode table: a word belongs to it when `word &&& mask = pattern`. -/
structure OpcodeRow where
  mnemonic : String
  pattern : Command
  mask : Command
  deriving DecidableEq, Repr

/-- The opcode table, row for row as spec/opcode_table.json has it. -/
def opcodeTable : List OpcodeRow := [
  { mnemonic := "CREATE", pattern := 0x000000000000000000000001#96, mask := 0x0000000000000000000000FF#96 },
  { mnemonic := "PROCESS", pattern := 0x000000000000000000000002#96, mask := 0xFFFFFFFF00000000FFFFFFFF#96 },
  { mnemonic := "SET_DELAY", pattern := 0x000000000000000000000003#96, mask := 0xFFFFFFFF00000000FFFFFFFF#96 },
  { mnemonic := "SET_GAIN", pattern := 0x000000000000000000000004#96, mask := 0xFFFFFFFF00000000FFFFFFFF#96 },
  { mnemonic := "SET_SMOOTHING", pattern := 0x000000000000000000000005#96, mask := 0xFFFFFFFF00000000FFFFFFFF#96 },
  { mnemonic := "DESTROY", pattern := 0x000000000000000000000006#96, mask := 0xFFFFFFFFFFFFFFFFFFFFFFFF#96 } ]

/-- The mnemonic of a command, as the opcode table spells it. -/
def Instr.mnemonic : Instr → String
  | .create _ _ _ => "CREATE"
  | .process _ => "PROCESS"
  | .setDelay _ => "SET_DELAY"
  | .setGain _ => "SET_GAIN"
  | .setSmoothing _ => "SET_SMOOTHING"
  | .destroy => "DESTROY"

/-- A row of the table accepts a word. -/
def OpcodeRow.accepts (r : OpcodeRow) (w : Command) : Bool := w &&& r.mask == r.pattern

/-- Byte `k` of a word holds bits `[8k+7 : 8k]` (R37, D25): the number a little-endian byte list stands for. -/
def littleEndian : List Byte → Nat
  | [] => 0
  | b :: rest => b.toNat + 256 * littleEndian rest

/-- A command as a byte transport brings it: 12 bytes, header first, then `A`, then `B`, each little-endian
(R37, R49, D25), which is the whole 96-bit word little-endian. Another number of bytes is no command: "There
is no other length" (R49). -/
def commandOfBytes (bytes : List Byte) : Option Command :=
  if bytes.length = 12 then some (BitVec.ofNat 96 (littleEndian bytes)) else none

/-- The decoder on the bytes of a byte transport, total on any bytes. -/
def decodeBytes (bytes : List Byte) : Option (Except Illegal Instr) :=
  (commandOfBytes bytes).map decode

/-- The 12 bytes in which a byte transport sends a command (R37, D25). -/
def commandBytes (w : Command) : List Byte :=
  (List.range 12).map fun k => w.extractLsb' (8 * k) 8

/-- The three 32-bit words in which a word transport sends a command: header, then `A`, then `B` (R49, D25). -/
def commandWords (w : Command) : List Word :=
  [w.extractLsb' 0 32, w.extractLsb' 32 32, w.extractLsb' 64 32]

/-- A command as a word transport brings it (R49, D25). -/
def commandOfWords : List Word → Option Command
  | [header, a, b] => some (b ++ a ++ header)
  | _ => none

/-- The 8 bytes in which a byte transport returns a response (R37, D25). -/
def responseBytes (r : Response) : List Byte :=
  (List.range 8).map fun k => r.extractLsb' (8 * k) 8

end Sys2Proof
end

