-- ==== Sys2Proof/Machine/State.lean ====
section
/-! DEFINITION. The state of the AFE (R17), of its port (R48), the reasons a step can stop, and the state after
reset (R32, R93). -/

namespace Sys2Proof.Machine

/-- The delay buffer: slot index and word, strictly rising indices, no entry equal to what an unlisted slot
reads as (`Memory.wf` in Ops.lean). The AFE has one word-addressed space and no bytes (R33, R37; log 10). -/
abbrev Memory := List (Nat × Word)

/-- The four status codes of a response (R76). -/
inductive Status where
  | ok
  | invalidCapacity
  | noEngine
  | illegalCommand
  deriving DecidableEq, Repr

/-- The levels the host drives on the AFE's input pins at one rising edge of `clk` (R48). -/
structure PortIn where
  rst : Bool
  cmdValid : Bool
  cmdWord : Command
  rspReady : Bool
  deriving DecidableEq, Repr

/-- What one rising edge does at the port (R48, R92). -/
inductive PortEvent where
  /-- `rst = 1`. -/
  | reset
  /-- `rsp_valid = 1` and `rsp_ready = 1`: the response is delivered. -/
  | deliver (r : Response)
  /-- `cmd_valid = 1` and `cmd_ready = 1`: the command is accepted. -/
  | accept (w : Command)
  /-- Nothing is accepted or delivered. -/
  | nothing
  deriving DecidableEq, Repr

/-- The machine. The first nine fields are the state of R17, "exactly the following, and nothing else";
`rsp` is the port's (R48); `inputs` and `delivered` are the model's own (log 6, 8). -/
structure State where
  /-- `valid`: an engine is live (R19). -/
  valid : Bool
  /-- `capacity` (R23). -/
  capacity : BitVec 24
  /-- `buffer` (R24). -/
  buffer : Memory
  /-- `write_cursor` (R25). -/
  writeCursor : BitVec 24
  /-- `current_delay` (R26). -/
  currentDelay : Word
  /-- `target_delay` (R27). -/
  targetDelay : Word
  /-- `current_gain` (R28). -/
  currentGain : Word
  /-- `target_gain` (R29). -/
  targetGain : Word
  /-- `smoothing_factor` (R30). -/
  smoothingFactor : Word
  /-- The response on offer: `rsp_valid` is whether there is one, `rsp_word` is it (R48). -/
  rsp : Option Response
  /-- The input pins at the coming edges, next first; past its end the host drives every pin low (log 6). -/
  inputs : List PortIn
  /-- The responses delivered so far, oldest first; nothing in the AFE reads it (log 8). -/
  delivered : List Response
  deriving DecidableEq, Repr

/-- Reasons to stop. The AFE itself never stops: an error is a status in a response (R82). Both reasons
need a live engine outside the invariants of R31, which no run from reset reaches (log 9); stopping there
is safe. -/
inductive Fault where
  /-- Raised by PROCESS when `write_cursor` or `current_delay` is outside the domain on which R63 states
  ReadPosition (`write_cursor < capacity`, `current_delay` in `[0, capacity]`). Safe. -/
  | readPositionOutsideDomain
  /-- Raised by PROCESS when a slot index is not below `capacity`, outside the domain on which R34 and R35 state
  MemRead and MemWrite. Safe. -/
  | slotOutsideBuffer
  deriving DecidableEq, Repr

/-- Reasons the model gives an instruction no meaning. -/
inductive Refusal where
  /-- An arm of `exec` without a meaning yet; the mnemonic says which. Safe. No arm is left so. -/
  | notModelled (mnemonic : String)
  deriving DecidableEq, Repr

/-- The machine right after reset: no engine, no response on offer (R92, R93). Every other register and slot
is unspecified there (R32); the zeros are the model's (log 2, 3). -/
def State.reset : State where
  valid := false
  capacity := 0#24
  buffer := []
  writeCursor := 0#24
  currentDelay := 0#32
  targetDelay := 0#32
  currentGain := 0#32
  targetGain := 0#32
  smoothingFactor := 0#32
  rsp := none
  inputs := []
  delivered := []

end Sys2Proof.Machine
end

