-- ==== Sys2Proof/Machine/Flags.lean ====
section
/-! DEFINITION. The AFE keeps no flag, condition code or sticky bit (R22). What stands in their place is the status
of the response, made here whole (R54, R76). -/

namespace Sys2Proof.Machine

/-- The code of a status (R76). -/
def Status.code : Status → BitVec 2
  | .ok => 0#2
  | .invalidCapacity => 1#2
  | .noEngine => 2#2
  | .illegalCommand => 3#2

/-- The response word: status in `[1:0]`, zero in `[31:2]`, data in `[63:32]` (R54). -/
def responseWord (status : Status) (data : Word) : Response := data ++ 0#30 ++ Status.code status

/-- The status code a response word carries, `rsp_word[1:0]` (R76). -/
def responseStatus (r : Response) : BitVec 2 := r.extractLsb' 0 2

/-- The data a response word carries, `rsp_word[63:32]` (R54). -/
def responseData (r : Response) : Word := r.extractLsb' 32 32

end Sys2Proof.Machine
end

