-- ==== Sys2Proof/Config.lean ====
section
/-! DEFINITION. The implementation parameters of R7: one is open, the others have the value the spec gives
this hardware. None of them is state (R17). -/

namespace Sys2Proof.Config

/-- `MAX_CAPACITY - 1`. It has no body: R7, D7 and U15 leave the depth of the delay RAM OPEN (log 1), so
whatever is proved holds for every depth the spec admits. -/
opaque maxCapacityPred : Fin 16777215

/-- `MAX_CAPACITY`, the depth of the delay RAM in words, `1 <= MAX_CAPACITY <= 2^24 - 1` (R7). -/
def maxCapacity : Nat := maxCapacityPred.val + 1

/-- `1 - SMOOTH_EPS` with `SMOOTH_EPS = 2^-10`: the upper clamp of the smoothing factor (R7, D9). -/
def smoothingMax : Word := 0x3F7FC000#32

/-- `DEFAULT_SMOOTHING`: the smoothing factor CREATE sets, `1 - 2^-7` (R7, D10). -/
def defaultSmoothing : Word := 0x3F7E0000#32

/-- The canonical quiet NaN, the result of every operation whose IEEE result is a NaN (R13, D5). -/
def canonicalNaN : Word := 0x7FC00000#32

end Sys2Proof.Config
end

