-- ==== Sys2Proof/Machine/Binary32.lean ====
section
/-! DEFINITION. The binary32 number format, its three arithmetic primitives, comparisons and integer
conversions (R11 to R14). Operands are taken apart, the exact result is formed in whole numbers, and it is
rounded once. -/

namespace Sys2Proof.Machine

/-- The sign bit, bit 31 (R11). -/
def signBit (w : Word) : Bool := w.getLsbD 31

/-- The exponent field, bits 30 to 23 (R11). -/
def exponentField (w : Word) : Nat := (w.extractLsb' 23 8).toNat

/-- The fraction field, bits 22 to 0 (R11). -/
def fractionField (w : Word) : Nat := (w.extractLsb' 0 23).toNat

/-- The value a word stands for (R11). With exponent field `e >= 1` the value is
`1.fraction * 2^(e-127) = (2^23 + fraction) * 2^(e-1)` units of `2^-149`; with `e = 0` it is
`fraction` units (the zeros and the subnormals). -/
def unpack (w : Word) : Datum :=
  if exponentField w = 255 then
    if fractionField w = 0 then .infinite (signBit w) else .nan
  else if exponentField w = 0 then .finite (signBit w) (fractionField w)
  else .finite (signBit w) ((2 ^ 23 + fractionField w) * 2 ^ (exponentField w - 1))

/-- The low 31 bits of +infinity. -/
def infinityBits : Nat := 0x7F800000

/-- The low 31 bits of the binary32 value nearest to `num / den` units of `2^-149`, ties to even (R12), for
`den >= 1`. `shift` is how many low bits the 24-bit significand drops; `shift * 2^23 + q` lays exponent and
fraction side by side, so that a carry out of the significand moves into the exponent, and a subnormal
(`shift = 0`, `q < 2^23`) is its own bit pattern. Overflow gives infinity. -/
def roundNearestEven (num den : Nat) : Nat :=
  let shift := (num / den).log2 - 23
  let step := den * 2 ^ shift
  let q := num / step
  let r := num % step
  let up := if step < 2 * r ∨ (2 * r = step ∧ q % 2 = 1) then 1 else 0
  min infinityBits (shift * 2 ^ 23 + q + up)

/-- A word from its sign and its low 31 bits (R11). -/
def packBits (neg : Bool) (bits : Nat) : Word :=
  BitVec.ofNat 32 ((if neg then 2 ^ 31 else 0) + bits)

/-- The infinities. -/
def infinityWord (neg : Bool) : Word := packBits neg infinityBits

/-- A finite value in units of `2^-149`, with its sign. -/
def signedUnits (neg : Bool) (mag : Nat) : Int := if neg then -(mag : Int) else (mag : Int)

/-- The sum of two finite values, rounded once. An exact zero is `+0` unless both operands are negative, as
IEEE 754 says for round to nearest (log 11). -/
def addFinite (na : Bool) (ma : Nat) (nb : Bool) (mb : Nat) : Word :=
  let sum := signedUnits na ma + signedUnits nb mb
  if sum = 0 then packBits (na && nb) 0
  else packBits (decide (sum < 0)) (roundNearestEven sum.natAbs 1)

/-- IEEE addition on values: a NaN operand or `inf - inf` gives the canonical NaN (R12, R13). -/
def addData : Datum → Datum → Word
  | .nan, _ => Config.canonicalNaN
  | .infinite _, .nan => Config.canonicalNaN
  | .infinite na, .infinite nb => if na = nb then infinityWord na else Config.canonicalNaN
  | .infinite na, .finite _ _ => infinityWord na
  | .finite _ _, .nan => Config.canonicalNaN
  | .finite _ _, .infinite nb => infinityWord nb
  | .finite na ma, .finite nb mb => addFinite na ma nb mb

/-- The value with the opposite sign. -/
def negData : Datum → Datum
  | .nan => .nan
  | .infinite neg => .infinite (!neg)
  | .finite neg mag => .finite (!neg) mag

/-- IEEE multiplication on values: a NaN operand or `0 * inf` gives the canonical NaN (R12, R13). A product
of two magnitudes counts units of `2^-298`, hence the denominator `2^149`. -/
def mulData : Datum → Datum → Word
  | .nan, _ => Config.canonicalNaN
  | .infinite _, .nan => Config.canonicalNaN
  | .infinite na, .infinite nb => infinityWord (na ^^ nb)
  | .infinite na, .finite nb mb => if mb = 0 then Config.canonicalNaN else infinityWord (na ^^ nb)
  | .finite _ _, .nan => Config.canonicalNaN
  | .finite na ma, .infinite nb => if ma = 0 then Config.canonicalNaN else infinityWord (na ^^ nb)
  | .finite na ma, .finite nb mb => packBits (na ^^ nb) (roundNearestEven (ma * mb) (2 ^ 149))

/-- `add32(a, b)` (R12). -/
def add32 (a b : Word) : Word := addData (unpack a) (unpack b)

/-- `sub32(a, b)` (R12): `a - b` is `a + (-b)`, rounded once. -/
def sub32 (a b : Word) : Word := addData (unpack a) (negData (unpack b))

/-- `mul32(a, b)` (R12). -/
def mul32 (a b : Word) : Word := mulData (unpack a) (unpack b)

/-- Where a value stands on the number line, in units of `2^-149`; a NaN stands nowhere, and an infinity stands
at `2^128`, beyond every finite value. The two zeros stand at one place (R14). -/
def position : Datum → Option Int
  | .nan => none
  | .infinite neg => some (signedUnits neg (2 ^ 277))
  | .finite neg mag => some (signedUnits neg mag)

/-- `is_nan(w)` (R15). -/
def isNaN (w : Word) : Bool := unpack w == .nan

/-- `a < b` on binary32: false when either is a NaN (R14). -/
def lt32 (a b : Word) : Bool :=
  match position (unpack a), position (unpack b) with
  | some x, some y => decide (x < y)
  | some _, none => false
  | none, _ => false

/-- `a <= b` on binary32: false when either is a NaN (R14). -/
def le32 (a b : Word) : Bool :=
  match position (unpack a), position (unpack b) with
  | some x, some y => decide (x ≤ y)
  | some _, none => false
  | none, _ => false

/-- `a == b` on binary32: the zeros are equal, a NaN equals nothing (R14). -/
def eq32 (a b : Word) : Bool :=
  match position (unpack a), position (unpack b) with
  | some x, some y => decide (x = y)
  | some _, none => false
  | none, _ => false

/-- +0.0. -/
def zeroWord : Word := 0x00000000#32

/-- 1.0. -/
def oneWord : Word := 0x3F800000#32

/-- -1.0. -/
def minusOneWord : Word := 0xBF800000#32

/-- `i2f(n)`: exact for `0 <= n <= 2^24` (R14). -/
def i2f (n : Nat) : Word := packBits false (roundNearestEven (n * 2 ^ 149) 1)

/-- `floor_int(r)`: the greatest integer `<= r`, stated for finite `r >= 0` (R14), where -0.0 counts as 0; none
outside that domain. -/
def floorInt (r : Word) : Option Nat :=
  match unpack r with
  | .nan => none
  | .infinite _ => none
  | .finite neg mag => if neg ∧ mag ≠ 0 then none else some (mag / 2 ^ 149)

end Sys2Proof.Machine
end

