-- ==== Sys2Proof/Machine/Operands.lean ====
section
/-! DEFINITION. How a command's operand reaches a register: the clamp (R15) with each register's bounds, and the
modulo of an index (R16). The fields of the command word are taken apart in Decode.lean (R50). -/

namespace Sys2Proof.Machine

/-- `clamp(x, lo, hi)`: a NaN goes to the low bound, a zero keeps its sign (R15). -/
def clamp (x lo hi : Word) : Word :=
  if isNaN x || lt32 x lo then lo else if lt32 hi x then hi else x

/-- A delay operand: `clamp(x, 0.0, i2f(capacity))` (R59, R72). -/
def clampDelay (capacity : Nat) (x : Word) : Word := clamp x zeroWord (i2f capacity)

/-- A gain operand: `clamp(x, -1.0, 1.0)` (R59, R73). -/
def clampGain (x : Word) : Word := clamp x minusOneWord oneWord

/-- A smoothing operand: `clamp(x, 0.0, 1 - SMOOTH_EPS)` (R74). -/
def clampSmoothing (x : Word) : Word := clamp x zeroWord Config.smoothingMax

/-- `a mod capacity` for `0 <= a <= 2*capacity - 1`: one conditional subtraction (R16). -/
def modCapacity (a capacity : Nat) : Nat := if capacity ≤ a then a - capacity else a

end Sys2Proof.Machine
end

