-- ==== Sys2Proof/Machine/Ops.lean ====
section
/-! DEFINITION. The named operations over the buffer, the registers and the port: every meaning is built of them. -/

namespace Sys2Proof.Machine

/-! ### The buffer as data -/

/-- What a slot that is not listed reads as: +0.0 (log 3). -/
def Memory.unlisted : Word := 0x00000000#32

/-- The word in slot `i`. -/
def Memory.read : Memory → Nat → Word
  | [], _ => Memory.unlisted
  | (j, v) :: rest, i => if j = i then v else Memory.read rest i

/-- A slot in front of higher ones, listed only if it differs from what an unlisted slot reads as. -/
def Memory.put (i : Nat) (v : Word) (rest : Memory) : Memory :=
  if v = Memory.unlisted then rest else (i, v) :: rest

/-- The buffer with `v` in slot `i` and every other slot as before; it keeps the canonical form. -/
def Memory.write : Memory → Nat → Word → Memory
  | [], i, v => Memory.put i v []
  | (j, u) :: rest, i, v =>
    if i < j then Memory.put i v ((j, u) :: rest)
    else if i = j then Memory.put i v rest
    else (j, u) :: Memory.write rest i v

/-- The buffer with +0.0 in every slot below `n`: those slots are unlisted, which reads as +0.0. -/
def Memory.zeroBelow (m : Memory) (n : Nat) : Memory := m.filter fun e => n ≤ e.1

/-- Every listed slot lies above `i`. -/
def Memory.above (i : Nat) (m : Memory) : Bool := m.all fun e => i < e.1

/-- The canonical form: strictly rising slots, none listed with what an unlisted slot reads as. -/
def Memory.wf : Memory → Bool
  | [] => true
  | (i, v) :: rest => v != Memory.unlisted && Memory.above i rest && Memory.wf rest

/-! ### Updates of the state, by name -/

/-- `valid <- v`. -/
def State.setValid (s : State) (v : Bool) : State := { s with valid := v }

/-- The buffer replaced. -/
def State.setBuffer (s : State) (m : Memory) : State := { s with buffer := m }

/-- `write_cursor <- w`. -/
def State.setWriteCursor (s : State) (w : BitVec 24) : State := { s with writeCursor := w }

/-- `current_delay <- d` and `current_gain <- g`. -/
def State.setCurrent (s : State) (d g : Word) : State := { s with currentDelay := d, currentGain := g }

/-- `target_delay <- d`. -/
def State.setTargetDelay (s : State) (d : Word) : State := { s with targetDelay := d }

/-- `target_gain <- g`. -/
def State.setTargetGain (s : State) (g : Word) : State := { s with targetGain := g }

/-- `smoothing_factor <- f`. -/
def State.setSmoothingFactor (s : State) (f : Word) : State := { s with smoothingFactor := f }

/-- The response on offer replaced. -/
def State.setRsp (s : State) (r : Option Response) : State := { s with rsp := r }

/-! ### Ending a command -/

/-- `respond(status, data)`: the command ends and its response is on offer (R10, R54). -/
def respond (status : Status) (data : Word) (s : State) : State :=
  s.setRsp (some (responseWord status data))

/-- `raise <Status>`: the one way an error is taken. It is no trap: nothing is saved, no mode changes, no state
is written; the response carries the status with data 0 (R10, R82). There is no return from it, because nothing
was entered (R83). -/
def raise (status : Status) (s : State) : State := respond status 0#32 s

/-! ### The buffer through the engine -/

/-- `MemRead(i, 1)`, stated for `0 <= i <= capacity - 1` (R34); none outside. -/
def memRead (i : Nat) (s : State) : Option Word :=
  if i < s.capacity.toNat then some (Memory.read s.buffer i) else none

/-- `MemWrite(i, 1, v)`, stated for `0 <= i <= capacity - 1` (R35); none outside. -/
def memWrite (i : Nat) (v : Word) (s : State) : Option State :=
  if i < s.capacity.toNat then some (s.setBuffer (Memory.write s.buffer i v)) else none

/-- `write_cursor <- (write_cursor + 1) mod capacity` (R25, R61 step 5). -/
def advanceCursor (s : State) : State :=
  s.setWriteCursor (BitVec.ofNat 24 (modCapacity (s.writeCursor.toNat + 1) s.capacity.toNat))

/-! ### The port -/

/-- All pins low. -/
def PortIn.idle : PortIn := { rst := false, cmdValid := false, cmdWord := 0#96, rspReady := false }

/-- The host offers a command. -/
def PortIn.offer (w : Command) : PortIn := { rst := false, cmdValid := true, cmdWord := w, rspReady := false }

/-- The host is ready to take a response. -/
def PortIn.take : PortIn := { rst := false, cmdValid := false, cmdWord := 0#96, rspReady := true }

/-- The host resets the AFE. -/
def PortIn.resetPin : PortIn := { rst := true, cmdValid := false, cmdWord := 0#96, rspReady := false }

/-- The pin levels at the next edge. -/
def State.pins (s : State) : PortIn := s.inputs.headD PortIn.idle

/-- The state once those levels have been sampled. -/
def State.sampled (s : State) : State := { s with inputs := s.inputs.tail }

/-- `cmd_ready`: no reset and no command outstanding (R48, R92). -/
def State.cmdReady (s : State) : Bool := !s.pins.rst && s.rsp.isNone

/-- `rsp_valid`: no reset and a response on offer (R48, R92). -/
def State.rspValid (s : State) : Bool := !s.pins.rst && s.rsp.isSome

/-- What the next edge does at the port: reset goes first (R92); while a response is on offer no command is
accepted (R48). -/
def State.portEvent (s : State) : PortEvent :=
  if s.pins.rst then .reset
  else match s.rsp with
    | some r => if s.pins.rspReady then .deliver r else .nothing
    | none => if s.pins.cmdValid then .accept s.pins.cmdWord else .nothing

/-- The response on offer is delivered, and the AFE can take the next command (R48). -/
def deliver (r : Response) (s : State) : State :=
  { s with rsp := none, delivered := s.delivered ++ [r] }

/-- The hardware reset: `valid = 0`, no response on offer, and an outstanding command delivers none (R92 to R94).
The registers and slots it leaves unspecified take the values they have in `State.reset` (log 4). -/
def hardwareReset (s : State) : State :=
  { State.reset with inputs := s.inputs, delivered := s.delivered }

/-- The edges at which the host hands over one command and takes its response. -/
def transaction (w : Command) : List PortIn := [PortIn.offer w, PortIn.take]

/-- The edges at which the host sends a sequence of commands, one at a time (R42, R95). -/
def transactions (ws : List Command) : List PortIn := ws.flatMap transaction

end Sys2Proof.Machine
end

