-- ==== Sys2Proof/Machine/Lifecycle.lean ====
section
/-! DEFINITION. CREATE and DESTROY (40_lifecycle.md). -/

namespace Sys2Proof.Machine

/-- The engine a successful CREATE sets up: every field written, the live slots +0.0 (R59, R32). -/
def newEngine (cap : Nat) (initialDelay initialGain : Word) (s : State) : State :=
  { s with
    valid := true
    capacity := BitVec.ofNat 24 cap
    buffer := Memory.zeroBelow s.buffer cap
    writeCursor := 0#24
    currentDelay := clampDelay cap initialDelay
    targetDelay := clampDelay cap initialDelay
    currentGain := clampGain initialGain
    targetGain := clampGain initialGain
    smoothingFactor := Config.defaultSmoothing }

/-- CREATE on a chip of depth `maxCapacity`: INVALID_CAPACITY when `cap == 0` or `cap > MAX_CAPACITY`, with no
state written, else a new engine, whatever was live before (R59, R77). -/
def createOn (maxCapacity cap : Nat) (initialDelay initialGain : Word) (s : State) : State :=
  if cap = 0 ∨ maxCapacity < cap then raise .invalidCapacity s
  else respond .ok 0#32 (newEngine cap initialDelay initialGain s)

/-- CREATE (R59). -/
def execCreate (cap : Nat) (initialDelay initialGain : Word) (s : State) : Host.Outcome State Fault Refusal :=
  .next (createOn Config.maxCapacity cap initialDelay initialGain s)

/-- DESTROY: NO_ENGINE without an engine, else `valid <- 0` and nothing else (R60). -/
def execDestroy (s : State) : Host.Outcome State Fault Refusal :=
  .next (if s.valid then respond .ok 0#32 (s.setValid false) else raise .noEngine s)

end Sys2Proof.Machine
end

