-- ==== Sys2Proof/Machine/Process.lean ====
section
/-! DEFINITION. PROCESS and its four datapath stages (41_process.md). -/

namespace Sys2Proof.Machine

/-- SmoothStep (R62): the source's formula, evaluated left to right, with the result replaced by the target
when it is not strictly between the current value and the target. -/
def smoothStep (c t s : Word) : Word :=
  if eq32 s zeroWord then t
  else
    let k := sub32 oneWord s
    let r := add32 c (mul32 (sub32 t c) k)
    if lt32 c t then (if lt32 c r && lt32 r t then r else t)
    else if lt32 t c then (if lt32 t r && lt32 r c then r else t)
    else t

/-- What ReadPosition answers: the two slots and the weight of the second (R63). -/
structure ReadPos where
  i0 : Nat
  i1 : Nat
  f : Word
  deriving DecidableEq, Repr

/-- The answer with `i1 = (i0 + 1) mod capacity` (R36, R63). -/
def readPosAt (i0 capacity : Nat) (f : Word) : ReadPos :=
  { i0 := i0, i1 := modCapacity (i0 + 1) capacity, f := f }

/-- ReadPosition from the integer part `n` and the fraction `phi` of the delay (R63). -/
def readPositionFrom (w n capacity : Nat) (phi : Word) : ReadPos :=
  if eq32 phi zeroWord then readPosAt (modCapacity (w + capacity - n) capacity) capacity zeroWord
  else
    let i0 := modCapacity (w + capacity - n - 1) capacity
    let f := sub32 oneWord phi
    if eq32 f oneWord then readPosAt (modCapacity (i0 + 1) capacity) capacity zeroWord
    else readPosAt i0 capacity f

/-- ReadPosition (R63), on the domain the rule states it for: `w < capacity` and `D` in `[0, capacity]`; none
outside (log 9). -/
def readPosition (w : Nat) (d : Word) (capacity : Nat) : Option ReadPos :=
  if w < capacity ∧ le32 zeroWord d ∧ le32 d (i2f capacity) then
    (floorInt d).map fun n => readPositionFrom w n capacity (sub32 d (i2f n))
  else none

/-- Interpolate (R64): `f` weights the second slot; with `f == 0` the first slot comes back bit for bit. -/
def interpolate (b0 b1 f : Word) : Word :=
  if eq32 f zeroWord then b0 else add32 b0 (mul32 f (sub32 b1 b0))

/-- The stored value of AllpassCore, `v = x + g*delayed` (R65). -/
def allpassStored (x delayed g : Word) : Word := add32 x (mul32 g delayed)

/-- The output of AllpassCore, `y = delayed - g*v`, from the rounded `v` that is stored (R65). -/
def allpassOutput (delayed g v : Word) : Word := sub32 delayed (mul32 g v)

/-- Step 1 of PROCESS: both current values take one smoothing step with the same factor (R61, R62). -/
def smoothParameters (s : State) : State :=
  s.setCurrent (smoothStep s.currentDelay s.targetDelay s.smoothingFactor)
    (smoothStep s.currentGain s.targetGain s.smoothingFactor)

/-- Steps 2 and 3 of PROCESS: the delayed sample, from the position of the values just smoothed, read before
anything is written (R61, R39). -/
def delayedSample (s : State) : Except Fault Word :=
  match readPosition s.writeCursor.toNat s.currentDelay s.capacity.toNat with
  | none => .error .readPositionOutsideDomain
  | some p =>
    match memRead p.i0 s, memRead p.i1 s with
    | some b0, some b1 => .ok (interpolate b0 b1 p.f)
    | some _, none => .error .slotOutsideBuffer
    | none, _ => .error .slotOutsideBuffer

/-- Steps 4 to 6 of PROCESS: store `v` at the cursor, advance the cursor, answer OK with `y` (R61, R65). -/
def storeAndAnswer (x delayed : Word) (s : State) : Host.Outcome State Fault Refusal :=
  let v := allpassStored x delayed s.currentGain
  match memWrite s.writeCursor.toNat v s with
  | some t => .next (respond .ok (allpassOutput delayed s.currentGain v) (advanceCursor t))
  | none => .fault .slotOutsideBuffer

/-- PROCESS: NO_ENGINE without an engine, else the six steps (R61). -/
def execProcess (x : Word) (s : State) : Host.Outcome State Fault Refusal :=
  if s.valid then
    match delayedSample (smoothParameters s) with
    | .ok delayed => storeAndAnswer x delayed (smoothParameters s)
    | .error e => .fault e
  else .next (raise .noEngine s)

end Sys2Proof.Machine
end

