-- ==== Sys2Proof/Machine/Setters.lean ====
section
/-! DEFINITION. SET_DELAY, SET_GAIN and SET_SMOOTHING (42_parameters.md). -/

namespace Sys2Proof.Machine

/-- What the three setters share: NO_ENGINE without an engine, else one register written and OK with data 0
(R72 to R75). -/
def setParameter (write : State → State) (s : State) : State :=
  if s.valid then respond .ok 0#32 (write s) else raise .noEngine s

/-- SET_DELAY: `target_delay <- clamp(A, 0.0, i2f(capacity))` (R72). -/
def execSetDelay (newDelay : Word) (s : State) : Host.Outcome State Fault Refusal :=
  .next (setParameter (fun t => t.setTargetDelay (clampDelay t.capacity.toNat newDelay)) s)

/-- SET_GAIN: `target_gain <- clamp(A, -1.0, 1.0)` (R73). -/
def execSetGain (newGain : Word) (s : State) : Host.Outcome State Fault Refusal :=
  .next (setParameter (fun t => t.setTargetGain (clampGain newGain)) s)

/-- SET_SMOOTHING: `smoothing_factor <- clamp(A, 0.0, 1.0 - SMOOTH_EPS)` (R74). -/
def execSetSmoothing (factor : Word) (s : State) : Host.Outcome State Fault Refusal :=
  .next (setParameter (fun t => t.setSmoothingFactor (clampSmoothing factor)) s)

end Sys2Proof.Machine
end

