-- ==== Sys2Proof/Machine/Dispatch.lean ====
section
/-! DEFINITION. The dispatch: one arm per command, each a direct call of its meaning. -/

namespace Sys2Proof.Machine

def exec (i : Instr) (s : State) : Host.Outcome State Fault Refusal :=
  match i with
  | .create cap initialDelay initialGain => Sys2Proof.Machine.execCreate cap initialDelay initialGain s
  | .process input => Sys2Proof.Machine.execProcess input s
  | .setDelay newDelay => Sys2Proof.Machine.execSetDelay newDelay s
  | .setGain newGain => Sys2Proof.Machine.execSetGain newGain s
  | .setSmoothing factor => Sys2Proof.Machine.execSetSmoothing factor s
  | .destroy => Sys2Proof.Machine.execDestroy s

end Sys2Proof.Machine
end

