-- ==== Sys2Proof/Machine/Step.lean ====
section
/-! DEFINITION. One step of the machine: one rising edge at the port. -/

namespace Sys2Proof.Machine

/-- An accepted word is decoded and run as one atomic command (R42, R48); an illegal word completes with
ILLEGAL_COMMAND (R53, R79). Decoding looks at the word alone and comes first (R81). -/
def step (s : State) : Host.Outcome State Fault Refusal :=
  match s.portEvent with
  | .reset => .next (hardwareReset s.sampled)
  | .deliver r => .next (deliver r s.sampled)
  | .accept w =>
    match decode w with
    | .ok i => exec i s.sampled
    | .error _ => .next (raise .illegalCommand s.sampled)
  | .nothing => .next s.sampled

/-- The state with a command on the port, so that the very next step accepts it: the word is offered at the next
edge, and no earlier command is outstanding (log 7). The bits above `nbits` are 0. -/
def State.withFetchWord (s : State) (nbits w : Nat) : State :=
  { s with rsp := none, inputs := PortIn.offer (BitVec.ofNat 96 (w % 2 ^ nbits)) :: s.inputs }

end Sys2Proof.Machine
end

