-- ==== Sys2Proof/Machine/Assembler.lean ====
section
/-! DEFINITION. The assembler of R56 and its pseudo-command PROCESS_BLOCK (R57): from a line of text to command
words. It is host software and no part of the AFE (D35). What R56 leaves open about the text is in log 14. -/

namespace Sys2Proof.Machine

/-- A `<fval>` of R56. -/
inductive Fval where
  /-- A decimal literal: `digits * 10^scale`, with its sign. -/
  | decimal (neg : Bool) (digits : Nat) (scale : Int)
  /-- `inf` or `-inf`. -/
  | inf (neg : Bool)
  /-- `nan`. -/
  | nan
  /-- `bits(0xHHHHHHHH)`. -/
  | bits (w : Word)
  deriving DecidableEq, Repr

/-- A line of R56 that holds a command. -/
inductive AsmLine where
  | create (cap : Nat) (initialDelay initialGain : Fval)
  | process (input : Fval)
  | setDelay (newDelay : Fval)
  | setGain (newGain : Fval)
  | setSmoothing (factor : Fval)
  | destroy
  /-- The pseudo-command of R57. -/
  | processBlock (inputs : List Fval)
  /-- `.cmd`, a raw word. -/
  | raw (w : Command)
  deriving DecidableEq, Repr

/-- The low 31 bits of the binary32 value nearest to `digits * 10^scale`, ties to even (R56). -/
def decimalBits (digits : Nat) : Int → Nat
  | .ofNat e => roundNearestEven (digits * 10 ^ e * 2 ^ 149) 1
  | .negSucc e => roundNearestEven (digits * 2 ^ 149) (10 ^ (e + 1))

/-- The binary32 pattern of a `<fval>` (R56). -/
def Fval.toWord : Fval → Word
  | .decimal neg digits scale => packBits neg (decimalBits digits scale)
  | .inf neg => infinityWord neg
  | .nan => Config.canonicalNaN
  | .bits w => w

/-- The command words a line assembles to (R56, R57). -/
def assembleLine : AsmLine → List Command
  | .create cap d g => [encode (.create cap d.toWord g.toWord)]
  | .process x => [encode (.process x.toWord)]
  | .setDelay d => [encode (.setDelay d.toWord)]
  | .setGain g => [encode (.setGain g.toWord)]
  | .setSmoothing f => [encode (.setSmoothing f.toWord)]
  | .destroy => [encode .destroy]
  | .processBlock xs => processBlockWords (xs.map Fval.toWord)
  | .raw w => [w]

/-! ### The text -/

/-- A word or a comma of a line. -/
inductive Token where
  | word (cs : List Char)
  | comma
  deriving DecidableEq, Repr

/-- The word read so far, if there is one, in front of the tokens that follow it. -/
def flushWord (acc : List Char) (rest : List Token) : List Token :=
  if acc.isEmpty then rest else .word acc.reverse :: rest

/-- The tokens of a line: "`;` starts a comment to the end of the line" (R56). -/
def lexLine : List Char → List Char → List Token
  | [], acc => flushWord acc []
  | c :: cs, acc =>
    if c = ';' then flushWord acc []
    else if c = ',' then flushWord acc (.comma :: lexLine cs [])
    else if c = ' ' ∨ c = '\t' ∨ c = '\r' ∨ c = '\n' then flushWord acc (lexLine cs [])
    else lexLine cs (c :: acc)

/-- Operands after the first, each behind a comma. -/
def operandsAfterComma : List Token → Option (List (List Char))
  | [] => some []
  | .comma :: .word w :: rest => (operandsAfterComma rest).map (w :: ·)
  | .comma :: .comma :: _ => none
  | [.comma] => none
  | .word _ :: _ => none

/-- The operands of a line, separated by commas. -/
def operandList : List Token → Option (List (List Char))
  | [] => some []
  | .word w :: rest => (operandsAfterComma rest).map (w :: ·)
  | .comma :: _ => none

/-- The value of a digit character, if it is one of `base`. -/
def digitValue (base : Nat) (c : Char) : Option Nat :=
  let n := c.toNat
  let v :=
    if 48 ≤ n ∧ n ≤ 57 then n - 48
    else if 65 ≤ n ∧ n ≤ 70 then n - 55
    else if 97 ≤ n ∧ n ≤ 102 then n - 87
    else 16
  if v < base then some v else none

/-- A run of digits, most significant first, on top of the value read before it. -/
def digitsFrom (base : Nat) : List Char → Nat → Option Nat
  | [], acc => some acc
  | c :: cs, acc =>
    match digitValue base c with
    | some v => digitsFrom base cs (acc * base + v)
    | none => none

/-- One digit or more. -/
def parseDigits (base : Nat) (cs : List Char) : Option Nat :=
  if cs.isEmpty then none else digitsFrom base cs 0

/-- A capacity: "decimal or 0x integer, 0 .. 2^24-1" (R56). -/
def parseCapacity (cs : List Char) : Option Nat :=
  let n := match cs with
    | '0' :: 'x' :: hex => parseDigits 16 hex
    | _ => parseDigits 10 cs
  n.filter fun v => v < 2 ^ 24

/-- An exponent: an optional sign and digits. -/
def parseExponent : List Char → Option Int
  | '-' :: cs => (parseDigits 10 cs).map fun n => -(n : Int)
  | '+' :: cs => (parseDigits 10 cs).map fun n => (n : Int)
  | cs => (parseDigits 10 cs).map fun n => (n : Int)

/-- Digits with an optional point and further digits: the digits as one number, and how many of them stand
behind the point. -/
def parseMantissa (cs : List Char) : Option (Nat × Nat) :=
  match cs.span (· ≠ '.') with
  | (whole, []) => (parseDigits 10 whole).map fun n => (n, 0)
  | (whole, _ :: frac) =>
    match parseDigits 10 whole, parseDigits 10 frac with
    | some n, some m => some (n * 10 ^ frac.length + m, frac.length)
    | some _, none => none
    | none, _ => none

/-- An unsigned decimal literal, as `1.5` or `1e-3`. -/
def parseDecimal (neg : Bool) (cs : List Char) : Option Fval :=
  match cs.span (· ≠ 'e') with
  | (mantissa, []) => (parseMantissa mantissa).map fun m => .decimal neg m.1 (-(m.2 : Int))
  | (mantissa, _ :: exponent) =>
    match parseMantissa mantissa, parseExponent exponent with
    | some m, some e => some (.decimal neg m.1 (e - (m.2 : Int)))
    | some _, none => none
    | none, _ => none

/-- Eight hexadecimal digits and a closing parenthesis: what follows `bits(0x`. -/
def parseBits (cs : List Char) : Option Fval :=
  if cs.drop 8 = [')'] then (parseDigits 16 (cs.take 8)).map fun n => .bits (BitVec.ofNat 32 n) else none

/-- A `<fval>` (R56). -/
def parseFval : List Char → Option Fval
  | ['i', 'n', 'f'] => some (.inf false)
  | ['-', 'i', 'n', 'f'] => some (.inf true)
  | ['n', 'a', 'n'] => some .nan
  | 'b' :: 'i' :: 't' :: 's' :: '(' :: '0' :: 'x' :: cs => parseBits cs
  | '-' :: cs => parseDecimal true cs
  | cs => parseDecimal false cs

/-- A raw word: `0x` and 24 hexadecimal digits, most significant first (R56). -/
def parseRaw : List Char → Option Command
  | '0' :: 'x' :: hex =>
    if hex.length = 24 then (parseDigits 16 hex).map fun n => BitVec.ofNat 96 n else none
  | _ => none

/-- The `<fval>` operands of a line, all of them or none. -/
def parseFvals : List (List Char) → Option (List Fval)
  | [] => some []
  | w :: ws =>
    match parseFval w, parseFvals ws with
    | some v, some vs => some (v :: vs)
    | some _, none => none
    | none, _ => none

/-- The line a name and its operands stand for (R56, R57). -/
def parseCommand (name : String) (ops : List (List Char)) : Option AsmLine :=
  if name = "CREATE" then
    match ops with
    | cap :: ws =>
      match parseCapacity cap, parseFvals ws with
      | some n, some [d, g] => some (.create n d g)
      | _, _ => none
    | [] => none
  else if name = "PROCESS_BLOCK" then (parseFvals ops).map .processBlock
  else if name = ".cmd" then
    match ops with
    | [w] => (parseRaw w).map .raw
    | _ => none
  else
    match parseFvals ops with
    | some [x] =>
      if name = "PROCESS" then some (.process x)
      else if name = "SET_DELAY" then some (.setDelay x)
      else if name = "SET_GAIN" then some (.setGain x)
      else if name = "SET_SMOOTHING" then some (.setSmoothing x)
      else none
    | some [] => if name = "DESTROY" then some .destroy else none
    | _ => none

/-- The command words of one line of text; none when the line is not of the syntax of R56. -/
def assembleText (line : List Char) : Option (List Command) :=
  match lexLine line [] with
  | [] => some []
  | .word name :: rest =>
    match operandList rest with
    | some ops => (parseCommand (String.ofList name) ops).map assembleLine
    | none => none
  | .comma :: _ => none

/-- The command words of a program, one command per line (R56). -/
def assembleProgram : List (List Char) → Option (List Command)
  | [] => some []
  | line :: rest =>
    match assembleText line, assembleProgram rest with
    | some ws, some more => some (ws ++ more)
    | some _, none => none
    | none, _ => none

/-! ### Commands as text, in the syntax of R56 -/

/-- A hexadecimal digit. -/
def hexChar (n : Nat) : Char := Char.ofNat (if n < 10 then 48 + n else 55 + n)

/-- The lowest `count` hexadecimal digits of a number, most significant first. -/
def hexText : Nat → Nat → List Char
  | 0, _ => []
  | count + 1, n => hexText count (n / 16) ++ [hexChar (n % 16)]

/-- `bits(0xHHHHHHHH)`. -/
def bitsText (w : Word) : List Char := ['b', 'i', 't', 's', '(', '0', 'x'] ++ hexText 8 w.toNat ++ [')']

/-- Operands separated by commas. -/
def operandsText : List Word → List Char
  | [] => []
  | [w] => bitsText w
  | w :: v :: rest => bitsText w ++ ',' :: ' ' :: operandsText (v :: rest)

/-- A command as a line of text, its operands bit for bit. -/
def commandText : Instr → List Char
  | .create cap d g =>
    ['C', 'R', 'E', 'A', 'T', 'E'] ++ ' ' :: '0' :: 'x' :: hexText 6 cap ++ ',' :: ' ' :: operandsText [d, g]
  | .process x => ['P', 'R', 'O', 'C', 'E', 'S', 'S'] ++ ' ' :: operandsText [x]
  | .setDelay d => ['S', 'E', 'T', '_', 'D', 'E', 'L', 'A', 'Y'] ++ ' ' :: operandsText [d]
  | .setGain g => ['S', 'E', 'T', '_', 'G', 'A', 'I', 'N'] ++ ' ' :: operandsText [g]
  | .setSmoothing f =>
    ['S', 'E', 'T', '_', 'S', 'M', 'O', 'O', 'T', 'H', 'I', 'N', 'G'] ++ ' ' :: operandsText [f]
  | .destroy => ['D', 'E', 'S', 'T', 'R', 'O', 'Y']

/-- A block as a line of text (R57). -/
def blockText (xs : List Word) : List Char :=
  ['P', 'R', 'O', 'C', 'E', 'S', 'S', '_', 'B', 'L', 'O', 'C', 'K'] ++ ' ' :: operandsText xs

/-- A raw word as a `.cmd` line. -/
def rawText (w : Command) : List Char := ['.', 'c', 'm', 'd'] ++ ' ' :: '0' :: 'x' :: hexText 24 w.toNat

end Sys2Proof.Machine
end

