-- ==== Sys2Proof/Safety.lean ====
section
/-! DEFINITION. The terms in which statements about the AFE are made: the invariants of R31, a legal response, what
nothing may observe, sequences of commands, and the parts of a command word as numbers. -/

namespace Sys2Proof.Machine

/-- `lo <= w <= hi` on binary32; so `w` is no NaN. -/
def InRange (lo hi w : Word) : Prop := le32 lo w = true ∧ le32 w hi = true

/-- The invariants of a live engine (R31, first four points). -/
structure EngineOk (s : State) : Prop where
  capacity_pos : 1 ≤ s.capacity.toNat
  capacity_le : s.capacity.toNat ≤ Config.maxCapacity
  cursor_lt : s.writeCursor.toNat < s.capacity.toNat
  currentDelay_range : InRange zeroWord (i2f s.capacity.toNat) s.currentDelay
  targetDelay_range : InRange zeroWord (i2f s.capacity.toNat) s.targetDelay
  currentGain_range : InRange minusOneWord oneWord s.currentGain
  targetGain_range : InRange minusOneWord oneWord s.targetGain
  smoothing_range : InRange zeroWord Config.smoothingMax s.smoothingFactor

/-- A response word of R54: bits `[31:2]` are 0, and the data is 0 unless the status is OK. -/
def ResponseOk (r : Response) : Prop :=
  r.extractLsb' 2 30 = 0#30 ∧ (responseStatus r ≠ Status.code .ok → responseData r = 0#32)

/-- The invariant of the machine: a live engine keeps R31, the buffer keeps its canonical form and lists only
slots that exist (R33), and every response offered or delivered is one of R54. -/
structure Inv (s : State) : Prop where
  engine : s.valid = true → EngineOk s
  buffer_wf : Memory.wf s.buffer = true
  buffer_depth : ∀ e ∈ s.buffer, e.1 < Config.maxCapacity
  rsp_ok : ∀ r, s.rsp = some r → ResponseOk r
  delivered_ok : ∀ r ∈ s.delivered, ResponseOk r

/-- The AFE's own state, R17: the state with the port's and the model's fields blanked. -/
def State.engineOnly (s : State) : State := { s with rsp := none, inputs := [], delivered := [] }

/-- Two live engines that a command cannot tell apart: the same registers and the same live slots (R24). -/
structure SameEngine (s t : State) : Prop where
  capacity : s.capacity = t.capacity
  writeCursor : s.writeCursor = t.writeCursor
  currentDelay : s.currentDelay = t.currentDelay
  targetDelay : s.targetDelay = t.targetDelay
  currentGain : s.currentGain = t.currentGain
  targetGain : s.targetGain = t.targetGain
  smoothingFactor : s.smoothingFactor = t.smoothingFactor
  slots : ∀ i, i < s.capacity.toNat → Memory.read s.buffer i = Memory.read t.buffer i

/-- Two states the host cannot tell apart: the same port, the same `valid`, and the same engine if there is one.
Every other register and slot may differ (R32, R60: nothing observes them). -/
structure SameObservable (s t : State) : Prop where
  valid : s.valid = t.valid
  rsp : s.rsp = t.rsp
  inputs : s.inputs = t.inputs
  delivered : s.delivered = t.delivered
  engine : s.valid = true → SameEngine s t

/-- One command after another, as far as no one stops. -/
def thenRun (o : Host.Outcome State Fault Refusal) (k : State → Host.Outcome State Fault Refusal) :
    Host.Outcome State Fault Refusal :=
  match o with
  | .next s => k s
  | .fault e => .fault e
  | .refused e => .refused e

/-- The commands of a list, in order (R42). -/
def execAll : List Instr → State → Host.Outcome State Fault Refusal
  | [], s => .next s
  | i :: is, s => thenRun (exec i s) (execAll is)

/-! ### The parts of a command word, as numbers (R49) -/

/-- `op`, bits `[3:0]`. -/
def wordOp (w : Command) : Nat := w.toNat % 16

/-- `rsv`, bits `[7:4]`. -/
def wordRsv (w : Command) : Nat := w.toNat / 2 ^ 4 % 16

/-- `cap`, bits `[31:8]`. -/
def wordCap (w : Command) : Nat := w.toNat / 2 ^ 8 % 2 ^ 24

/-- `A`, bits `[63:32]`. -/
def wordA (w : Command) : Nat := w.toNat / 2 ^ 32 % 2 ^ 32

/-- `B`, bits `[95:64]`. -/
def wordB (w : Command) : Nat := w.toNat / 2 ^ 64 % 2 ^ 32

/-- The illegal words, as R53 and the operand table of R51 list them. -/
def IllegalWord (w : Command) : Prop :=
  wordOp w = 0 ∨ 7 ≤ wordOp w ∨ wordRsv w ≠ 0 ∨
    (2 ≤ wordOp w ∧ wordOp w ≤ 6 ∧ (wordCap w ≠ 0 ∨ wordB w ≠ 0)) ∨
    (wordOp w = 6 ∧ wordA w ≠ 0)

/-- The state once a command has answered and written nothing else. -/
def answered (status : Status) (data : Word) (s : State) : State :=
  { s with rsp := some (responseWord status data) }

/-- What an accepted word with opcode `op` does: an illegal one answers ILLEGAL_COMMAND and writes nothing
(R53, R79), a legal one runs the command `i` of its fields. -/
def WordRuns (op : Nat) (i : Command → Instr) : Prop :=
  ∀ s w, s.portEvent = .accept w → wordOp w = op →
    (IllegalWord w → step s = .next (answered .illegalCommand 0#32 s.sampled)) ∧
    (¬ IllegalWord w → step s = exec (i w) s.sampled)

/-- `n` steps of the machine, as the host runs them. -/
def runSteps (n : Nat) (s : State) : Host.Outcome State Fault Refusal := Host.Core.run Sys2Proof.core n s

/-! ### Rounding, in units of `2^-149` -/

/-- The value of a finite word in units of `2^-149`; none for infinities and NaNs. -/
def finiteUnits (w : Word) : Option Int :=
  match unpack w with
  | .finite neg mag => some (signedUnits neg mag)
  | .infinite _ => none
  | .nan => none

/-- +infinity, or -infinity when `neg`, as R11 lays it out. -/
def infinityOf (neg : Bool) : Word := if neg then 0xFF800000#32 else 0x7F800000#32

/-- `r` is `num / den` units rounded to nearest, ties to even (R12): no finite value is nearer, a value equally
near gives way to an even significand, and a magnitude of `2^128 - 2^103` or more, `2^277 - 2^252` units, goes to
the infinity of its sign. -/
def RoundedToNearest (r : Word) (num : Int) (den : Nat) : Prop :=
  (num.natAbs < (2 ^ 277 - 2 ^ 252) * den →
    ∃ ru, finiteUnits r = some ru ∧
      ∀ c cu, finiteUnits c = some cu →
        (ru * den - num).natAbs ≤ (cu * den - num).natAbs ∧
        (cu ≠ ru → (ru * den - num).natAbs = (cu * den - num).natAbs → r.getLsbD 0 = false)) ∧
  ((2 ^ 277 - 2 ^ 252) * den ≤ num.natAbs → unpack r = .infinite (decide (num < 0)))

end Sys2Proof.Machine
end

