-- ==== Sys2Proof/Certificates/Slice0/Obligations.lean ====
section
/-! DEFINITION. The statements about the AFE, for the provers. -/

open Sys2Proof Sys2Proof.Machine

/-! ### Encoding -/

/-- The example words of 30_encoding.md and 95_test_vectors.md decode to the commands they are written for
(R49 to R53). -/
def Obligations.SpecWordsDecodeToTheirCommands : Prop :=
  decode 0x3F0000004000000000000401#96 = .ok (.create 4 0x40000000#32 0x3F000000#32) ∧
  decode 0x000000003F80000000000002#96 = .ok (.process 0x3F800000#32) ∧
  decode 0x00000000C0A0000000000003#96 = .ok (.setDelay 0xC0A00000#32) ∧
  decode 0x000000004000000000000004#96 = .ok (.setGain 0x40000000#32) ∧
  decode 0x000000003F80000000000005#96 = .ok (.setSmoothing 0x3F800000#32) ∧
  decode 0x000000000000000000000006#96 = .ok .destroy ∧
  decode 0x000000000000000000000012#96 = .error .reservedField ∧
  decode 0x800000000000000000000006#96 = .error .operandBNotZero

/-- Decoding the encoding of a well-formed command gives it back, with every operand at every value (R49 to R52). -/
def Obligations.DecodeOfEncodeIsTheCommand : Prop :=
  ∀ i : Instr, i.wellFormed = true → decode (encode i) = .ok i

/-- A word that decodes is the encoding of the command it decodes to: no two words mean one command, and no bit of
a legal word is ignored (R53). -/
def Obligations.EncodeOfDecodeIsTheWord : Prop :=
  ∀ (w : Command) (i : Instr), decode w = .ok i → i.wellFormed = true ∧ encode i = w

/-- The decoder rejects exactly the words R53 calls illegal, and an accepted illegal word completes with
ILLEGAL_COMMAND and changes no state, whether or not an engine is live (R53, R79). -/
def Obligations.IllegalWordsAnswerIllegalCommand : Prop :=
  ∀ w : Command,
    ((∃ e, decode w = .error e) ↔ IllegalWord w) ∧
    (IllegalWord w → ∀ s : State, s.portEvent = .accept w →
      step s = .next (answered .illegalCommand 0#32 s.sampled))

/-- The rows of the opcode table that accept a word are the one of the command it decodes to, and none for an illegal
word: the table has no overlap, no gap, and says what the decoder does. -/
def Obligations.DecodingAgreesWithTheOpcodeTable : Prop :=
  ∀ w : Command,
    (opcodeTable.filter fun r => r.accepts w).map OpcodeRow.mnemonic =
      match decode w with
      | .ok i => [i.mnemonic]
      | .error _ => []

/-- Byte `k` of a transported command or response holds bits `[8k+7 : 8k]`, and the three words of a command are the
header, then `A`, then `B`; so a command survives either transport, and no other number of bytes is a command
(R37, R49, D25). -/
def Obligations.TransportsCarryTheWholeCommand : Prop :=
  (∀ w : Command, decodeBytes (commandBytes w) = some (decode w) ∧ commandOfWords (commandWords w) = some w) ∧
  (∀ (bytes : List Byte) (w : Command), commandOfBytes bytes = some w → commandBytes w = bytes) ∧
  (∀ w : Command, (commandBytes w).length = 12 ∧
    ∀ k, k < 12 → ∃ b, (commandBytes w)[k]? = some b ∧ b.toNat = w.toNat / 2 ^ (8 * k) % 2 ^ 8) ∧
  (∀ w : Command, ∃ header a b, commandWords w = [header, a, b] ∧
    header.toNat = w.toNat % 2 ^ 32 ∧ a.toNat = wordA w ∧ b.toNat = wordB w) ∧
  (∀ r : Response, (responseBytes r).length = 8 ∧
    ∀ k, k < 8 → ∃ b, (responseBytes r)[k]? = some b ∧ b.toNat = r.toNat / 2 ^ (8 * k) % 2 ^ 8)

/-- A response word has its status in `[1:0]`, zero in `[31:2]` and its data in `[63:32]`, with the codes of
R76 (R54, R76). -/
def Obligations.ResponseWordLayout : Prop :=
  ∀ data : Word,
    (responseWord .ok data).toNat = data.toNat * 2 ^ 32 ∧
    (responseWord .invalidCapacity data).toNat = data.toNat * 2 ^ 32 + 1 ∧
    (responseWord .noEngine data).toNat = data.toNat * 2 ^ 32 + 2 ∧
    (responseWord .illegalCommand data).toNat = data.toNat * 2 ^ 32 + 3

/-- Each parsed line assembles to the command it names with its operands, PROCESS_BLOCK to one PROCESS per operand in
order, and `.cmd` to its raw word; every word of a line but `.cmd`, parsed or as text, is legal (R56, R57). What R56
leaves open about the text is log 14. -/
def Obligations.AssemblerEmitsLegalWords : Prop :=
  (∀ l : AsmLine,
    (∀ w, l ≠ .raw w) →
    (∀ cap d g, l = .create cap d g → cap < 2 ^ 24) →
    ∀ w ∈ assembleLine l, ∃ i, decode w = .ok i ∧ encode i = w) ∧
  (∀ (cap : Nat) (d g : Fval), cap < 2 ^ 24 →
    (assembleLine (.create cap d g)).map decode = [.ok (.create cap d.toWord g.toWord)]) ∧
  (∀ v : Fval,
    (assembleLine (.process v)).map decode = [.ok (.process v.toWord)] ∧
    (assembleLine (.setDelay v)).map decode = [.ok (.setDelay v.toWord)] ∧
    (assembleLine (.setGain v)).map decode = [.ok (.setGain v.toWord)] ∧
    (assembleLine (.setSmoothing v)).map decode = [.ok (.setSmoothing v.toWord)]) ∧
  (assembleLine .destroy).map decode = [.ok .destroy] ∧
  (∀ vs : List Fval,
    (assembleLine (.processBlock vs)).map decode = vs.map fun v => .ok (.process v.toWord)) ∧
  (∀ w : Command, assembleLine (.raw w) = [w]) ∧
  (∀ (line : List Char) (ws : List Command), assembleText line = some ws →
    (lexLine line []).head? ≠ some (.word ['.', 'c', 'm', 'd']) →
    ∀ w ∈ ws, ∃ i, decode w = .ok i ∧ encode i = w)

/-- The text of every well-formed command assembles to that command's word, `PROCESS_BLOCK` with any number of
operands to one PROCESS each, `.cmd` with 24 digits, most significant first, to the word they write, and whatever
follows a `;` is a comment (R56, R57). The texts are `commandText`, `blockText` and `rawText`. -/
def Obligations.TextAssemblesToItsCommand : Prop :=
  (∀ i : Instr, i.wellFormed = true → assembleText (commandText i) = some [encode i]) ∧
  (∀ xs : List Word, assembleText (blockText xs) = some (xs.map fun x => encode (.process x))) ∧
  (∀ w : Command, assembleText (rawText w) = some [w]) ∧
  (∀ line rest : List Char, assembleText (line ++ ';' :: rest) = assembleText line)

/-- What a literal stands for (R56): a decimal literal the binary32 value nearest to it, ties to even, with the
literal's sign, also on a zero; `inf`, `-inf`, `nan` and `bits` their patterns. A literal too large is an infinity
(logs 11, 14). -/
def Obligations.LiteralsStandForTheNearestWord : Prop :=
  (Fval.inf false).toWord = 0x7F800000#32 ∧ (Fval.inf true).toWord = 0xFF800000#32 ∧
  Fval.nan.toWord = 0x7FC00000#32 ∧
  (∀ w : Word, (Fval.bits w).toWord = w) ∧
  (∀ (neg : Bool) (digits e : Nat),
    (Fval.decimal neg digits e).toWord.getLsbD 31 = neg ∧
    (Fval.decimal neg digits (-(e : Int))).toWord.getLsbD 31 = neg ∧
    RoundedToNearest (Fval.decimal neg digits e).toWord
      ((if neg then -1 else 1) * ((digits : Int) * 10 ^ e * 2 ^ 149)) 1 ∧
    RoundedToNearest (Fval.decimal neg digits (-(e : Int))).toWord
      ((if neg then -1 else 1) * ((digits : Int) * 2 ^ 149)) (10 ^ e))

/-! ### The port and the step -/

/-- When the pins offer a word that decodes, with no reset and no command outstanding, the step is `exec` of the
command on the state with those pins sampled; `withFetchWord` puts a word there (R42, R48). -/
def Obligations.StepRunsTheAcceptedCommand : Prop :=
  (∀ (s : State) (i : Instr), s.pins.rst = false → s.rsp = none → s.pins.cmdValid = true →
    decode s.pins.cmdWord = .ok i → step s = exec i { s with inputs := s.inputs.tail }) ∧
  (∀ (s : State) (w : Command) (i : Instr), decode w = .ok i →
    step (s.withFetchWord 96 w.toNat) = exec i { s with rsp := none })

/-- While a response is on offer no command is accepted: the edge delivers the response if the host takes it, and
else changes nothing but the pins. With no response on offer the AFE is ready, and an edge at which the host offers
nothing changes nothing but the pins and offers no response (R48). -/
def Obligations.OneCommandIsOutstanding : Prop :=
  (∀ (s : State) (r : Response), s.pins.rst = false → s.rsp = some r →
    s.cmdReady = false ∧ s.rspValid = true ∧
    (s.pins.rspReady = true →
      step s = .next { s with inputs := s.inputs.tail, rsp := none, delivered := s.delivered ++ [r] }) ∧
    (s.pins.rspReady = false → step s = .next { s with inputs := s.inputs.tail })) ∧
  (∀ s : State, s.pins.rst = false → s.rsp = none →
    s.cmdReady = true ∧ s.rspValid = false ∧
    (s.pins.cmdValid = false → step s = .next { s with inputs := s.inputs.tail, rsp := none }))

/-- A reset edge accepts and offers nothing, ends with no engine, delivers no response even if a command is
outstanding, and the AFE can take a command at the next edge without `rst` (R92, R94). -/
def Obligations.ResetEdgeDropsTheEngineAndTheResponse : Prop :=
  ∀ s : State, s.pins.rst = true →
    s.cmdReady = false ∧ s.rspValid = false ∧
    ∃ t, step s = .next t ∧ t.valid = false ∧ t.rsp = none ∧ t.delivered = s.delivered ∧
      t.inputs = s.inputs.tail ∧ (t.pins.rst = false → t.cmdReady = true)

/-- After reset there is no engine, the AFE is ready, and every command but CREATE answers NO_ENGINE and changes
nothing (R93). The other reset values are the model's choice (log 2, 3) and nothing is said of them. -/
def Obligations.ResetLeavesNoEngine : Prop :=
  State.reset.valid = false ∧ State.reset.cmdReady = true ∧
  ∀ i : Instr, (∀ cap d g, i ≠ .create cap d g) →
    exec i State.reset = .next (answered .noEngine 0#32 State.reset)

/-- Nothing but a command or a reset changes the AFE's state (R84): an edge that does neither leaves all of R17's
state as it was, and an idle edge (no reset, no response on offer, `cmd_valid = 0`) consumes the pins, offers no
response (R48) and does nothing else. -/
def Obligations.OnlyACommandOrAResetChangesTheEngine : Prop :=
  (∀ s t : State, step s = .next t → t.engineOnly ≠ s.engineOnly →
    s.portEvent = .reset ∨ ∃ w, s.portEvent = .accept w) ∧
  (∀ s : State, s.pins.rst = false → s.rsp = none → s.pins.cmdValid = false →
    step s = .next s.sampled ∧ s.sampled.rsp = none ∧ s.sampled.engineOnly = s.engineOnly)

/-- An accepted command answers exactly one response and delivers none itself; when its status is not OK the data
is 0 and the state is otherwise the state before it (R10, R82). -/
def Obligations.ErrorsWriteNoState : Prop :=
  ∀ (s t : State) (w : Command), s.portEvent = .accept w → step s = .next t →
    t.inputs = s.inputs.tail ∧ t.delivered = s.delivered ∧
    ∃ r, t.rsp = some r ∧
      (responseStatus r ≠ 0#2 → responseData r = 0#32 ∧ t = { s.sampled with rsp := some r })

/-- Exactly one status is reported for an accepted word, by the priority of R81. -/
def Obligations.StatusFollowsThePriority : Prop :=
  ∀ (s : State) (w : Command), Inv s → s.portEvent = .accept w →
    ∃ t r, step s = .next t ∧ t.rsp = some r ∧
      (IllegalWord w → responseStatus r = 3#2) ∧
      (¬ IllegalWord w → wordOp w = 1 →
        ((wordCap w = 0 ∨ Config.maxCapacity < wordCap w) → responseStatus r = 1#2) ∧
        (1 ≤ wordCap w → wordCap w ≤ Config.maxCapacity → responseStatus r = 0#2)) ∧
      (¬ IllegalWord w → wordOp w ≠ 1 →
        (s.valid = false → responseStatus r = 2#2) ∧
        (s.valid = true → responseStatus r = 0#2))

/-! ### The commands -/

/-- CREATE (R59, R77): INVALID_CAPACITY with no state written, else a new engine with every register and every live
slot written, and the answer OK. That the slots at or above the capacity read as before is the model's choice (log 3,
DESIGN CHOICE): R32 leaves them unspecified after CREATE. -/
def Obligations.CreateBuildsANewEngine : Prop :=
  WordRuns 1 (fun w => .create (wordCap w) (BitVec.ofNat 32 (wordA w)) (BitVec.ofNat 32 (wordB w))) ∧
  (∀ (s : State) (cap : Nat) (d g : Word), (cap = 0 ∨ Config.maxCapacity < cap) →
    exec (.create cap d g) s = .next (answered .invalidCapacity 0#32 s)) ∧
  (∀ (s : State) (cap : Nat) (d g : Word), 1 ≤ cap → cap ≤ Config.maxCapacity →
    ∃ t, exec (.create cap d g) s = .next t ∧
      t.valid = true ∧ t.capacity.toNat = cap ∧
      (∀ i, i < cap → Memory.read t.buffer i = 0x00000000#32) ∧
      (∀ i, cap ≤ i → Memory.read t.buffer i = Memory.read s.buffer i) ∧
      t.writeCursor = 0#24 ∧
      t.currentDelay = clamp d 0x00000000#32 (i2f cap) ∧ t.targetDelay = t.currentDelay ∧
      t.currentGain = clamp g 0xBF800000#32 0x3F800000#32 ∧ t.targetGain = t.currentGain ∧
      t.smoothingFactor = 0x3F7E0000#32 ∧
      t.rsp = some (responseWord .ok 0#32) ∧ t.inputs = s.inputs ∧ t.delivered = s.delivered)

/-- DESTROY (R60): NO_ENGINE without an engine, else `valid` is cleared, and nothing else is written but the
response. -/
def Obligations.DestroyClearsValidOnly : Prop :=
  WordRuns 6 (fun _ => .destroy) ∧
  (∀ s : State, s.valid = false → exec .destroy s = .next (answered .noEngine 0#32 s)) ∧
  (∀ s : State, s.valid = true →
    exec .destroy s = .next { s with valid := false, rsp := some (responseWord .ok 0#32) })

/-- SET_DELAY (R72): NO_ENGINE without an engine, else `target_delay` is the clamped operand, and nothing else is
written but the response. -/
def Obligations.SetDelayWritesTheTargetOnly : Prop :=
  WordRuns 3 (fun w => .setDelay (BitVec.ofNat 32 (wordA w))) ∧
  (∀ (s : State) (d : Word), s.valid = false → exec (.setDelay d) s = .next (answered .noEngine 0#32 s)) ∧
  (∀ (s : State) (d : Word), s.valid = true →
    exec (.setDelay d) s = .next { s with
      targetDelay := clamp d 0x00000000#32 (i2f s.capacity.toNat)
      rsp := some (responseWord .ok 0#32) })

/-- SET_GAIN (R73): NO_ENGINE without an engine, else `target_gain` is the clamped operand, and nothing else is
written but the response. -/
def Obligations.SetGainWritesTheTargetOnly : Prop :=
  WordRuns 4 (fun w => .setGain (BitVec.ofNat 32 (wordA w))) ∧
  (∀ (s : State) (g : Word), s.valid = false → exec (.setGain g) s = .next (answered .noEngine 0#32 s)) ∧
  (∀ (s : State) (g : Word), s.valid = true →
    exec (.setGain g) s = .next { s with
      targetGain := clamp g 0xBF800000#32 0x3F800000#32
      rsp := some (responseWord .ok 0#32) })

/-- SET_SMOOTHING (R74): NO_ENGINE without an engine, else `smoothing_factor` is the clamped operand, and nothing else
is written but the response. -/
def Obligations.SetSmoothingWritesTheFactorOnly : Prop :=
  WordRuns 5 (fun w => .setSmoothing (BitVec.ofNat 32 (wordA w))) ∧
  (∀ (s : State) (f : Word), s.valid = false → exec (.setSmoothing f) s = .next (answered .noEngine 0#32 s)) ∧
  (∀ (s : State) (f : Word), s.valid = true →
    exec (.setSmoothing f) s = .next { s with
      smoothingFactor := clamp f 0x00000000#32 0x3F7FC000#32
      rsp := some (responseWord .ok 0#32) })

/-- Different setters between two PROCESS commands commute, and of one repeated setter the last write wins (R75). -/
def Obligations.SettersCommuteAndTheLastWriteWins : Prop :=
  ∀ (s : State) (d d' g g' f f' : Word),
    thenRun (exec (.setDelay d) s) (exec (.setGain g)) = thenRun (exec (.setGain g) s) (exec (.setDelay d)) ∧
    thenRun (exec (.setDelay d) s) (exec (.setSmoothing f)) =
      thenRun (exec (.setSmoothing f) s) (exec (.setDelay d)) ∧
    thenRun (exec (.setGain g) s) (exec (.setSmoothing f)) =
      thenRun (exec (.setSmoothing f) s) (exec (.setGain g)) ∧
    thenRun (exec (.setDelay d') s) (exec (.setDelay d)) = exec (.setDelay d) s ∧
    thenRun (exec (.setGain g') s) (exec (.setGain g)) = exec (.setGain g) s ∧
    thenRun (exec (.setSmoothing f') s) (exec (.setSmoothing f)) = exec (.setSmoothing f) s

/-- The clamping idempotence of the source (R15, R59, R72 to R74): a delay, a gain or a smoothing factor beyond a bound
acts as that bound, and a NaN as the low bound, in the setters and in CREATE. -/
def Obligations.OutOfRangeParametersActAsTheBound : Prop :=
  ∀ (s : State) (x y : Word) (cap : Nat),
    (lt32 0x3F800000#32 x = true →
      exec (.setGain x) s = exec (.setGain 0x3F800000#32) s ∧
      exec (.create cap y x) s = exec (.create cap y 0x3F800000#32) s) ∧
    (lt32 x 0xBF800000#32 = true ∨ isNaN x = true →
      exec (.setGain x) s = exec (.setGain 0xBF800000#32) s ∧
      exec (.create cap y x) s = exec (.create cap y 0xBF800000#32) s) ∧
    (lt32 (i2f s.capacity.toNat) x = true →
      exec (.setDelay x) s = exec (.setDelay (i2f s.capacity.toNat)) s) ∧
    (lt32 (i2f cap) x = true →
      exec (.create cap x y) s = exec (.create cap (i2f cap) y) s) ∧
    (lt32 x 0x00000000#32 = true ∨ isNaN x = true →
      exec (.setDelay x) s = exec (.setDelay 0x00000000#32) s ∧
      exec (.create cap x y) s = exec (.create cap 0x00000000#32 y) s ∧
      exec (.setSmoothing x) s = exec (.setSmoothing 0x00000000#32) s) ∧
    (lt32 0x3F7FC000#32 x = true →
      exec (.setSmoothing x) s = exec (.setSmoothing 0x3F7FC000#32) s)

/-- Without an engine a legal PROCESS, SET_DELAY, SET_GAIN, SET_SMOOTHING or DESTROY completes with NO_ENGINE and
writes no state (R78). -/
def Obligations.NoEngineWritesNothing : Prop :=
  ∀ (i : Instr) (s : State), (∀ cap d g, i ≠ .create cap d g) → s.valid = false →
    exec i s = .next (answered .noEngine 0#32 s)

/-- With a live engine PROCESS and the setters always complete with OK, whatever the operand (R80). -/
def Obligations.NoErrorAfterConstruction : Prop :=
  ∀ (s : State) (x : Word), Inv s → s.valid = true →
    (∃ t y, exec (.process x) s = .next t ∧ t.rsp = some (responseWord .ok y)) ∧
    (∃ t, exec (.setDelay x) s = .next t ∧ t.rsp = some (responseWord .ok 0#32)) ∧
    (∃ t, exec (.setGain x) s = .next t ∧ t.rsp = some (responseWord .ok 0#32)) ∧
    (∃ t, exec (.setSmoothing x) s = .next t ∧ t.rsp = some (responseWord .ok 0#32))

/-- PROCESS (R61, R39): NO_ENGINE without an engine; else both current values take their smoothing step, the two
slots of the read position are read as they were before, `v` goes to the cursor's slot and to no other, the cursor
advances modulo `capacity`, the answer is OK with `y`, and nothing else is written. -/
def Obligations.ProcessFiltersOneSample : Prop :=
  WordRuns 2 (fun w => .process (BitVec.ofNat 32 (wordA w))) ∧
  (∀ (s : State) (x : Word), s.valid = false → exec (.process x) s = .next (answered .noEngine 0#32 s)) ∧
  (∀ (s : State) (x : Word), Inv s → s.valid = true →
    ∃ p t d g delayed v,
      d = smoothStep s.currentDelay s.targetDelay s.smoothingFactor ∧
      g = smoothStep s.currentGain s.targetGain s.smoothingFactor ∧
      readPosition s.writeCursor.toNat d s.capacity.toNat = some p ∧
      p.i0 < s.capacity.toNat ∧ p.i1 < s.capacity.toNat ∧
      delayed = interpolate (Memory.read s.buffer p.i0) (Memory.read s.buffer p.i1) p.f ∧
      v = add32 x (mul32 g delayed) ∧
      exec (.process x) s = .next t ∧
      t.currentDelay = d ∧ t.currentGain = g ∧
      Memory.read t.buffer s.writeCursor.toNat = v ∧
      (∀ j, j ≠ s.writeCursor.toNat → Memory.read t.buffer j = Memory.read s.buffer j) ∧
      t.writeCursor.toNat = (s.writeCursor.toNat + 1) % s.capacity.toNat ∧
      t.rsp = some (responseWord .ok (sub32 delayed (mul32 g v))) ∧
      t.valid = s.valid ∧ t.capacity = s.capacity ∧ t.targetDelay = s.targetDelay ∧
      t.targetGain = s.targetGain ∧ t.smoothingFactor = s.smoothingFactor ∧
      t.inputs = s.inputs ∧ t.delivered = s.delivered)

/-- Each part of the state is written only by the commands that R17's table names for it. That CREATE keeps the slots
at or above its capacity is the model's choice (log 3, DESIGN CHOICE), since R32 leaves them unspecified. -/
def Obligations.OnlyTheListedCommandsWriteEachRegister : Prop :=
  ∀ (i : Instr) (s t : State), Memory.wf s.buffer = true → exec i s = .next t →
    (t.valid ≠ s.valid → i = .destroy ∨ ∃ cap d g, i = .create cap d g) ∧
    (t.capacity ≠ s.capacity → ∃ cap d g, i = .create cap d g) ∧
    (∀ j, Memory.read t.buffer j ≠ Memory.read s.buffer j →
      (∃ x, i = .process x ∧ j = s.writeCursor.toNat) ∨ ∃ cap d g, i = .create cap d g ∧ j < cap) ∧
    (t.writeCursor ≠ s.writeCursor → (∃ x, i = .process x) ∨ ∃ cap d g, i = .create cap d g) ∧
    (t.currentDelay ≠ s.currentDelay → (∃ x, i = .process x) ∨ ∃ cap d g, i = .create cap d g) ∧
    (t.targetDelay ≠ s.targetDelay → (∃ d, i = .setDelay d) ∨ ∃ cap d g, i = .create cap d g) ∧
    (t.currentGain ≠ s.currentGain → (∃ x, i = .process x) ∨ ∃ cap d g, i = .create cap d g) ∧
    (t.targetGain ≠ s.targetGain → (∃ g, i = .setGain g) ∨ ∃ cap d g, i = .create cap d g) ∧
    (t.smoothingFactor ≠ s.smoothingFactor → (∃ f, i = .setSmoothing f) ∨ ∃ cap d g, i = .create cap d g)

/-! ### The arithmetic -/

/-- Addition and subtraction of finite values are exact and then rounded once, to nearest with ties to even, with
subnormals kept (R12), and overflow to infinity at IEEE's threshold (log 11, PRESUMED). -/
def Obligations.AddAndSubRoundOnceToNearestEven : Prop :=
  ∀ (a b : Word) (x y : Int), finiteUnits a = some x → finiteUnits b = some y →
    RoundedToNearest (add32 a b) (x + y) 1 ∧ RoundedToNearest (sub32 a b) (x - y) 1

/-- Multiplication of finite values is exact and then rounded once, to nearest with ties to even, with subnormals
kept (R12), and overflow to infinity at IEEE's threshold (log 11, PRESUMED). -/
def Obligations.MulRoundsOnceToNearestEven : Prop :=
  ∀ (a b : Word) (x y : Int), finiteUnits a = some x → finiteUnits b = some y →
    RoundedToNearest (mul32 a b) (x * y) (2 ^ 149)

/-- Every NaN result is the canonical quiet NaN, and a NaN operand gives it (R13). -/
def Obligations.NaNResultsAreCanonical : Prop :=
  ∀ a b : Word,
    (isNaN (add32 a b) = true → add32 a b = 0x7FC00000#32) ∧
    (isNaN (sub32 a b) = true → sub32 a b = 0x7FC00000#32) ∧
    (isNaN (mul32 a b) = true → mul32 a b = 0x7FC00000#32) ∧
    (isNaN a = true ∨ isNaN b = true →
      add32 a b = 0x7FC00000#32 ∧ sub32 a b = 0x7FC00000#32 ∧ mul32 a b = 0x7FC00000#32)

/-- Arithmetic on infinities (R12, R64, R71; the IEEE 754 facts are PRESUMED, log 11): an infinity swallows every
finite value and keeps or takes the sign the operation gives it, infinities that cancel give the canonical NaN, and so
does a zero times an infinity. -/
def Obligations.InfinitiesFollowIEEE754 : Prop :=
  ∀ na nb : Bool,
    (add32 (infinityOf na) (infinityOf nb) = if na = nb then infinityOf na else 0x7FC00000#32) ∧
    (sub32 (infinityOf na) (infinityOf nb) = if na = nb then 0x7FC00000#32 else infinityOf na) ∧
    (mul32 (infinityOf na) (infinityOf nb) = infinityOf (na ^^ nb)) ∧
    ∀ (b : Word) (y : Int), finiteUnits b = some y →
      add32 (infinityOf na) b = infinityOf na ∧ add32 b (infinityOf na) = infinityOf na ∧
      sub32 (infinityOf na) b = infinityOf na ∧ sub32 b (infinityOf na) = infinityOf (!na) ∧
      (y = 0 → mul32 (infinityOf na) b = 0x7FC00000#32 ∧ mul32 b (infinityOf na) = 0x7FC00000#32) ∧
      (y ≠ 0 → mul32 (infinityOf na) b = infinityOf (na ^^ decide (y < 0)) ∧
        mul32 b (infinityOf na) = infinityOf (na ^^ decide (y < 0)))

/-- The sign of a zero result (AP8, AP9 of the vectors; the rule is IEEE 754's, PRESUMED, log 11): an exact zero sum or
difference is `+0`, but `-0` when both addends are `-0`, and a product of finite values has the exclusive or of the
signs, also when it is or rounds to zero. -/
def Obligations.ZeroResultsTakeTheirSign : Prop :=
  ∀ (a b : Word) (x y : Int), finiteUnits a = some x → finiteUnits b = some y →
    (x + y = 0 → add32 a b = if a = 0x80000000#32 ∧ b = 0x80000000#32 then 0x80000000#32 else 0x00000000#32) ∧
    (x - y = 0 → sub32 a b = if a = 0x80000000#32 ∧ b = 0x00000000#32 then 0x80000000#32 else 0x00000000#32) ∧
    (mul32 a b).getLsbD 31 = (a.getLsbD 31 ^^ b.getLsbD 31)

/-- Comparisons and integer conversion (R14): the zeros are equal, a NaN compares false, finite values compare by
value, `i2f` is exact to `2^24`, and `floor_int` is the greatest integer below. That the infinities lie beyond the
finite values is PRESUMED (log 11), and that what `floor_int` leaves is exact is R14's own derived sentence (U1). -/
def Obligations.ComparisonsAndConversionsAreExact : Prop :=
  eq32 0x80000000#32 0x00000000#32 = true ∧
  (∀ a b : Word, isNaN a = true ∨ isNaN b = true →
    lt32 a b = false ∧ le32 a b = false ∧ eq32 a b = false) ∧
  (∀ (a b : Word) (x y : Int), finiteUnits a = some x → finiteUnits b = some y →
    (lt32 a b = true ↔ x < y) ∧ (le32 a b = true ↔ x ≤ y) ∧ (eq32 a b = true ↔ x = y)) ∧
  (∀ (a : Word) (x : Int), finiteUnits a = some x →
    lt32 0xFF800000#32 a = true ∧ lt32 a 0x7F800000#32 = true ∧
    le32 a 0xFF800000#32 = false ∧ le32 0x7F800000#32 a = false) ∧
  lt32 0xFF800000#32 0x7F800000#32 = true ∧ lt32 0x7F800000#32 0xFF800000#32 = false ∧
  eq32 0x7F800000#32 0x7F800000#32 = true ∧ eq32 0xFF800000#32 0xFF800000#32 = true ∧
  (∀ n : Nat, n ≤ 2 ^ 24 → finiteUnits (i2f n) = some ((n : Int) * 2 ^ 149)) ∧
  (∀ (r : Word) (x : Int), finiteUnits r = some x → 0 ≤ x →
    ∃ n, floorInt r = some n ∧ (n : Int) * 2 ^ 149 ≤ x ∧ x < ((n : Int) + 1) * 2 ^ 149 ∧
      (n < 2 ^ 24 → finiteUnits (sub32 r (i2f n)) = some (x - (n : Int) * 2 ^ 149)))

/-- The clamp (R15): NaN and everything below go to the low bound, everything above to the high bound, a value in
range stays as it is bit for bit, and the result is in range. -/
def Obligations.ClampFollowsItsRule : Prop :=
  ∀ x lo hi : Word, le32 lo hi = true →
    (isNaN x = true ∨ lt32 x lo = true → clamp x lo hi = lo) ∧
    (lt32 hi x = true → clamp x lo hi = hi) ∧
    (InRange lo hi x → clamp x lo hi = x) ∧
    InRange lo hi (clamp x lo hi)

/-- The modulo of R16 on its stated range: `a - capacity` if `a >= capacity` and `a` otherwise, which is the
remainder. -/
def Obligations.ModCapacityIsTheRemainder : Prop :=
  ∀ a capacity : Nat, 1 ≤ capacity → a ≤ 2 * capacity - 1 →
    modCapacity a capacity = a % capacity ∧
    (capacity ≤ a → modCapacity a capacity = a - capacity) ∧
    (a < capacity → modCapacity a capacity = a) ∧
    (a < capacity → modCapacity (a + 1) capacity = if a + 1 = capacity then 0 else a + 1)

/-! ### The buffer -/

/-- MemWrite sets one slot to the 32 bits of its value and changes no other slot and no register; MemRead gives back
those bits; neither reaches a slot at or above `capacity` (R34, R35). -/
def Obligations.SlotsHoldWhatWasWritten : Prop :=
  ∀ (s : State) (i : Nat) (v : Word), Memory.wf s.buffer = true →
    (i < s.capacity.toNat →
      ∃ t, memWrite i v s = some t ∧ memRead i t = some v ∧
        (∀ j, j ≠ i → Memory.read t.buffer j = Memory.read s.buffer j) ∧
        t = { s with buffer := t.buffer } ∧ Memory.wf t.buffer = true) ∧
    (s.capacity.toNat ≤ i → memWrite i v s = none ∧ memRead i s = none)

/-! ### The datapath stages -/

/-- SmoothStep (R62, R31): a zero factor gives the target bit for bit; else the result is the source's formula where
that lies strictly between the current value and the target, and the target where it does not, so it moves off the
current value, toward the target and never past it. For factors outside `[0, 1 - SMOOTH_EPS]` and for infinities, on
which R62 does not state it, this is log 17. -/
def Obligations.SmoothStepMovesTowardItsTarget : Prop :=
  ∀ c t s : Word, isNaN c = false → isNaN t = false →
    (lt32 c t = true →
      lt32 c (smoothStep c t s) = true ∧ le32 (smoothStep c t s) t = true) ∧
    (lt32 t c = true →
      lt32 (smoothStep c t s) c = true ∧ le32 t (smoothStep c t s) = true) ∧
    (eq32 c t = true → smoothStep c t s = t) ∧
    (eq32 s 0x00000000#32 = true → smoothStep c t s = t) ∧
    (eq32 s 0x00000000#32 = false →
      ∀ r, r = add32 c (mul32 (sub32 t c) (sub32 0x3F800000#32 s)) →
        (lt32 c t = true →
          (lt32 c r = true → lt32 r t = true → smoothStep c t s = r) ∧
          (lt32 c r = false ∨ lt32 r t = false → smoothStep c t s = t)) ∧
        (lt32 t c = true →
          (lt32 t r = true → lt32 r c = true → smoothStep c t s = r) ∧
          (lt32 t r = false ∨ lt32 r c = false → smoothStep c t s = t)))

/-- SmoothStep keeps every interval that holds the current value and the target, so the ranges of R31 and the bound
of R98 survive rounding. -/
def Obligations.SmoothStepKeepsEveryRange : Prop :=
  ∀ lo hi c t s : Word, InRange lo hi c → InRange lo hi t → InRange lo hi (smoothStep c t s)

/-- With no later setter both current values reach their targets exactly after finitely many PROCESS commands,
whatever the samples, and stay there (R70). -/
def Obligations.SmoothingReachesBothTargets : Prop :=
  ∀ s : State, Inv s → s.valid = true →
    ∃ n, n ≤ 2 ^ 32 ∧ ∀ xs : List Word, n ≤ xs.length →
      ∃ t, execAll (xs.map .process) s = .next t ∧
        t.currentDelay = s.targetDelay ∧ t.currentGain = s.targetGain ∧
        t.targetDelay = s.targetDelay ∧ t.targetGain = s.targetGain

/-- ReadPosition (R63, R36) on its whole domain: both slots lie in the buffer, the second follows the first modulo
`capacity`, `0 <= f < 1`, and slot and fraction together are the source's `write_cursor - current_delay` modulo
`capacity`, to within `2^-25` of a sample (`2^124` units of `2^-149`). `n` and `ph` are the whole and the
fractional part of the delay. -/
def Obligations.ReadPositionIsTheFractionalDelay : Prop :=
  ∀ (w capacity : Nat) (d : Word) (x : Int),
    w < capacity → capacity < 2 ^ 24 → InRange 0x00000000#32 (i2f capacity) d → finiteUnits d = some x →
    ∃ p fu, readPosition w d capacity = some p ∧ finiteUnits p.f = some fu ∧
      p.i0 < capacity ∧ p.i1 = (p.i0 + 1) % capacity ∧ 0 ≤ fu ∧ fu < 2 ^ 149 ∧
      ∃ n ph : Nat, x = (n : Int) * 2 ^ 149 + ph ∧ ph < 2 ^ 149 ∧
        (ph = 0 → p.i0 = (w + capacity - n) % capacity ∧ fu = 0) ∧
        (ph ≠ 0 →
          (p.i0 = (w + capacity - n - 1) % capacity ∧ (fu - (2 ^ 149 - ph)).natAbs ≤ 2 ^ 124) ∨
          (p.i0 = (w + capacity - n) % capacity ∧ fu = 0 ∧ ph ≤ 2 ^ 124))

/-- A delay of 0 acts exactly as a delay of `capacity`: both read the slot about to be written (R67). -/
def Obligations.DelayZeroActsAsDelayCapacity : Prop :=
  ∀ w capacity : Nat, w < capacity → capacity < 2 ^ 24 →
    ∃ p, readPosition w 0x00000000#32 capacity = some p ∧
      readPosition w (i2f capacity) capacity = some p ∧
      p.i0 = w ∧ eq32 p.f 0x00000000#32 = true

/-- An integral delay of `k` samples, `1 <= k <= capacity`, gives back the value PROCESS stored `k` samples before
(R67). -/
def Obligations.IntegralDelayReturnsTheValueStoredThen : Prop :=
  ∀ (s s1 t : State) (x : Word) (xs : List Word),
    Inv s → s.valid = true → exec (.process x) s = .next s1 →
    execAll (xs.map .process) s1 = .next t → xs.length + 1 ≤ s.capacity.toNat →
    delayedSample { t with currentDelay := i2f (xs.length + 1) } =
      .ok (Memory.read s1.buffer s.writeCursor.toNat)

/-- A fractional delay (R67). For `k - 1 < D < k` with `2 <= k <= capacity` the delayed sample is the interpolation
between the values stored `k` and `k - 1` samples before, the later one weighted `1 - (D - (k - 1))`; for `0 < D < 1`
it lies between the value stored last and the slot about to be written, the latter weighted `1 - D`, and is that
slot's own value where the weight rounds to 1. -/
def Obligations.FractionalDelayMixesTheTwoStoredThen : Prop :=
  (∀ (s s1 s2 t : State) (x x' : Word) (xs : List Word) (d : Word),
    Memory.wf s.buffer = true → s.valid = true → exec (.process x) s = .next s1 → exec (.process x') s1 = .next s2 →
    execAll (xs.map .process) s2 = .next t → xs.length + 2 ≤ s.capacity.toNat →
    lt32 (i2f (xs.length + 1)) d = true → lt32 d (i2f (xs.length + 2)) = true →
    delayedSample { t with currentDelay := d } =
      .ok (interpolate (Memory.read s1.buffer s.writeCursor.toNat) (Memory.read s2.buffer s1.writeCursor.toNat)
        (sub32 0x3F800000#32 (sub32 d (i2f (xs.length + 1)))))) ∧
  (∀ (s t : State) (x d : Word),
    Memory.wf s.buffer = true → s.valid = true → exec (.process x) s = .next t →
    lt32 0x00000000#32 d = true → lt32 d 0x3F800000#32 = true →
    delayedSample { t with currentDelay := d } =
      .ok (if eq32 (sub32 0x3F800000#32 d) 0x3F800000#32 = true then Memory.read t.buffer t.writeCursor.toNat
        else interpolate (Memory.read t.buffer s.writeCursor.toNat) (Memory.read t.buffer t.writeCursor.toNat)
          (sub32 0x3F800000#32 d)))

/-- Interpolate (R64): `f == 0` gives the first slot bit for bit whatever the second holds, any other weight the
formula `b0 + f*(b1 - b0)`, each operation rounded. For `0 < f < 1` two equal finite slots give their value, a NaN in
either gives the canonical NaN, an infinite second slot over a finite first gives that infinity, and an infinite first
slot gives the canonical NaN (the arithmetic of infinities is IEEE 754's, PRESUMED, log 11). For weights outside `[0, 1)`
the formula is log 17. -/
def Obligations.InterpolateAtItsEnds : Prop :=
  ∀ b0 b1 f : Word,
    (eq32 f 0x00000000#32 = true → interpolate b0 b1 f = b0) ∧
    (eq32 f 0x00000000#32 = false → interpolate b0 b1 f = add32 b0 (mul32 f (sub32 b1 b0))) ∧
    (lt32 0x00000000#32 f = true → lt32 f 0x3F800000#32 = true →
      (finiteUnits b0 ≠ none → eq32 (interpolate b0 b0 f) b0 = true) ∧
      (isNaN b0 = true ∨ isNaN b1 = true → interpolate b0 b1 f = 0x7FC00000#32) ∧
      (∀ neg : Bool, finiteUnits b0 ≠ none → b1 = infinityOf neg → interpolate b0 b1 f = infinityOf neg) ∧
      (∀ neg : Bool, b0 = infinityOf neg → interpolate b0 b1 f = 0x7FC00000#32))

/-- A NaN sample, or a NaN read from the buffer, stores the canonical NaN and answers it, for every gain (R71). -/
def Obligations.NaNSamplesSpread : Prop :=
  ∀ x delayed g : Word, isNaN x = true ∨ isNaN delayed = true →
    allpassStored x delayed g = 0x7FC00000#32 ∧
    allpassOutput delayed g (allpassStored x delayed g) = 0x7FC00000#32

/-- With a gain of zero and finite values the stage stores its input and answers the delayed sample: a pure delay
(R65). -/
def Obligations.ZeroGainIsAPureDelay : Prop :=
  ∀ x delayed g : Word, finiteUnits x ≠ none → finiteUnits delayed ≠ none → eq32 g 0x00000000#32 = true →
    eq32 (allpassStored x delayed g) x = true ∧
    eq32 (allpassOutput delayed g (allpassStored x delayed g)) delayed = true

/-- The first output of the impulse response (R68): after CREATE with an integral delay of 1 to `capacity`, PROCESS of
1.0 stores 1.0 in slot 0 and answers `-g`. -/
def Obligations.ImpulseAnswersMinusTheGain : Prop :=
  ∀ (s : State) (cap k : Nat) (g : Word),
    Memory.wf s.buffer = true → 1 ≤ k → k ≤ cap → cap ≤ Config.maxCapacity →
    ∃ t y, execAll [.create cap (i2f k) g, .process 0x3F800000#32] s = .next t ∧
      Memory.read t.buffer 0 = 0x3F800000#32 ∧ t.rsp = some (responseWord .ok y) ∧
      eq32 y (clamp g 0xBF800000#32 0x3F800000#32 ^^^ 0x80000000#32) = true

/-! ### Invariants and whole-machine rules -/

/-- The state after reset keeps the invariant. -/
def Obligations.ResetKeepsTheInvariant : Prop := Inv State.reset

/-- Every step keeps the invariant: the ranges of R31 while an engine is live, the buffer's canonical form, and the
legality of every response (R31, R54). -/
def Obligations.EveryStepKeepsTheInvariant : Prop :=
  ∀ s t : State, Inv s → step s = .next t → Inv t

/-- A state with the invariant never stops: the model's faults are for states no run reaches (R80, R82). -/
def Obligations.InvariantStatesNeverStop : Prop :=
  ∀ s : State, Inv s → ∃ t, step s = .next t

/-- Whatever the host drives on the pins, every run from reset goes on and keeps the invariant (R31, R80, R82). -/
def Obligations.EveryRunFromResetGoesOn : Prop :=
  ∀ (n : Nat) (pins : List PortIn),
    ∃ t, runSteps n { State.reset with inputs := pins } = .next t ∧ Inv t

/-- Nothing observes the registers without an engine, nor the slots at or above `capacity` (R24, R32, R60): two
states that differ only there answer the same and go on to two such states. -/
def Obligations.UnspecifiedStateIsNeverObserved : Prop :=
  ∀ s t : State, Inv s → Inv t → SameObservable s t →
    ∃ s' t', step s = .next s' ∧ step t = .next t' ∧ SameObservable s' t'

/-- After a successful CREATE nothing of the engine before it is left: from any two states on one port the same
CREATE leaves states the host cannot tell apart (R59, R91). -/
def Obligations.CreateForgetsTheOldEngine : Prop :=
  ∀ (s t : State) (cap : Nat) (d g : Word),
    1 ≤ cap → cap ≤ Config.maxCapacity → s.inputs = t.inputs → s.delivered = t.delivered →
    ∃ s' t', exec (.create cap d g) s = .next s' ∧ exec (.create cap d g) t = .next t' ∧ SameObservable s' t'

/-- PROCESS_BLOCK (R57, R66): sending the words of a block one transaction after another ends in the engine state
that PROCESS of each sample in order gives, and delivers one OK response per sample, in order, each the one that
PROCESS gives; without an engine it delivers NO_ENGINE with data 0 for each. -/
def Obligations.BlockEqualsItsSamplesInOrder : Prop :=
  (∀ (s : State) (xs : List Word), s.valid = false → s.rsp = none →
    ∃ t, runSteps (2 * xs.length) { s with inputs := transactions (processBlockWords xs) } = .next t ∧
      t.engineOnly = s.engineOnly ∧
      t.delivered = s.delivered ++ List.replicate xs.length (responseWord .noEngine 0#32)) ∧
  (∀ (s : State) (xs : List Word), Inv s → s.valid = true → s.rsp = none →
    ∃ (t u : State) (ys : List Word), runSteps (2 * xs.length) { s with inputs := transactions (processBlockWords xs) } = .next t ∧
      execAll (xs.map .process) s = .next u ∧ t.engineOnly = u.engineOnly ∧
      ys.length = xs.length ∧ t.delivered = s.delivered ++ ys.map (responseWord .ok) ∧
      ∀ k y, ys[k]? = some y →
        ∃ v, execAll ((xs.take (k + 1)).map .process) s = .next v ∧ v.rsp = some (responseWord .ok y))

/-- The boot sequence (R95): from reset, one transaction with a CREATE of a legal capacity answers OK, leaves a live
engine and leaves the AFE ready for the next command. -/
def Obligations.BootWithOneCreate : Prop :=
  ∀ (cap : Nat) (d g : Word), 1 ≤ cap → cap ≤ Config.maxCapacity →
    ∃ t, runSteps 2 { State.reset with inputs := transaction (encode (.create cap d g)) } = .next t ∧
      t.valid = true ∧ t.capacity.toNat = cap ∧ t.delivered = [responseWord .ok 0#32] ∧ t.cmdReady = true
end

