-- ==== Sys2Proof/Laws/Assembler.lean ====
section
/-! SUPPORT. The assembler's text: a word and its operands through the lexer, hexadecimal digits through the
parser. -/

namespace Sys2Proof.Machine

/-- A character that neither ends a word nor starts a comment. -/
def PlainChar (c : Char) : Prop := c ≠ ';' ∧ c ≠ ',' ∧ c ≠ ' ' ∧ c ≠ '\t' ∧ c ≠ '\r' ∧ c ≠ '\n'

/-! ### The lexer -/

/-- Plain characters join the word being read. -/
theorem lexLine_append_plain {cs : List Char} (h : ∀ c ∈ cs, PlainChar c) (rest acc : List Char) :
    lexLine (cs ++ rest) acc = lexLine rest (cs.reverse ++ acc) := by
  induction cs generalizing acc with
  | nil => rfl
  | cons c cs ih =>
    obtain ⟨h1, h2, h3, h4, h5, h6⟩ := h c (by simp)
    simp only [List.cons_append, lexLine, h1, h2, h3, h4, h5, h6, or_self, if_false]
    rw [ih fun x hx => h x (by simp [hx])]
    simp

/-- The last word of a line. -/
theorem lexLine_plain {cs : List Char} (h : ∀ c ∈ cs, PlainChar c) (hne : cs ≠ []) :
    lexLine cs [] = [.word cs] := by
  have hl := lexLine_append_plain h [] []
  rw [List.append_nil, List.append_nil] at hl
  simp [hl, lexLine, flushWord, hne]

/-- A word and the rest of the line behind a space. -/
theorem lexLine_plain_space {cs : List Char} (h : ∀ c ∈ cs, PlainChar c) (hne : cs ≠ []) (rest : List Char) :
    lexLine (cs ++ ' ' :: rest) [] = .word cs :: lexLine rest [] := by
  rw [lexLine_append_plain h]
  simp [lexLine, flushWord, hne]

/-- An operand and the rest of the line behind a comma. -/
theorem lexLine_plain_comma {cs : List Char} (h : ∀ c ∈ cs, PlainChar c) (hne : cs ≠ []) (rest : List Char) :
    lexLine (cs ++ ',' :: ' ' :: rest) [] = .word cs :: .comma :: lexLine rest [] := by
  rw [lexLine_append_plain h]
  simp [lexLine, flushWord, hne]

/-! ### Hexadecimal digits -/

theorem hexChar_plain : ∀ n, n < 16 → PlainChar (hexChar n) := by
  unfold PlainChar
  decide

theorem digitValue_hexChar : ∀ n, n < 16 → digitValue 16 (hexChar n) = some n := by decide

theorem hexText_plain (count n : Nat) : ∀ c ∈ hexText count n, PlainChar c := by
  induction count generalizing n with
  | zero => simp [hexText]
  | succ count ih =>
    intro c hc
    rw [hexText, List.mem_append, List.mem_singleton] at hc
    rcases hc with hc | rfl
    · exact ih _ _ hc
    · exact hexChar_plain _ (Nat.mod_lt _ (by decide))

@[simp] theorem hexText_length (count n : Nat) : (hexText count n).length = count := by
  induction count generalizing n with
  | zero => rfl
  | succ count ih => simp [hexText, ih]

theorem digitsFrom_append {base acc v : Nat} {xs : List Char} (h : digitsFrom base xs acc = some v)
    (ys : List Char) : digitsFrom base (xs ++ ys) acc = digitsFrom base ys v := by
  induction xs generalizing acc with
  | nil =>
    obtain rfl : acc = v := by simpa [digitsFrom] using h
    rfl
  | cons x xs ih =>
    simp only [digitsFrom, List.cons_append] at h ⊢
    split at h
    · exact ih h
    · cases h

theorem digitsFrom_hexText (count n acc : Nat) :
    digitsFrom 16 (hexText count n) acc = some (acc * 16 ^ count + n % 16 ^ count) := by
  induction count generalizing n with
  | zero => simp [hexText, digitsFrom, Nat.mod_one]
  | succ count ih =>
    rw [hexText, digitsFrom_append (ih _)]
    have hmod : n % 16 ^ (count + 1) = n % 16 + 16 * (n / 16 % 16 ^ count) := by
      rw [pow_succ, Nat.mul_comm, Nat.mod_mul]
    simp only [digitsFrom, digitValue_hexChar _ (Nat.mod_lt n (by decide : 0 < 16)), hmod, Option.some.injEq]
    ring

/-- A number written in hexadecimal reads as itself. -/
theorem parseDigits_hexText {count n : Nat} (h : n < 16 ^ (count + 1)) :
    parseDigits 16 (hexText (count + 1) n) = some n := by
  have hne : (hexText (count + 1) n).isEmpty = false := by simp [hexText]
  simp [parseDigits, hne, digitsFrom_hexText, Nat.mod_eq_of_lt h]

/-! ### Operands -/

theorem parseFval_bitsText (w : Word) : parseFval (bitsText w) = some (.bits w) := by
  change parseBits (hexText 8 w.toNat ++ [')']) = _
  rw [parseBits, List.drop_left' (hexText_length _ _), List.take_left' (hexText_length _ _),
    parseDigits_hexText w.isLt]
  simp

theorem parseFvals_bitsText (ws : List Word) : parseFvals (ws.map bitsText) = some (ws.map .bits) := by
  induction ws with
  | nil => rfl
  | cons w ws ih => simp [parseFvals, parseFval_bitsText, ih]

end Sys2Proof.Machine
end

