-- ==== Sys2Proof/Laws/Binary32.lean ====
section
/-! SUPPORT. The number format: the fields of a packed word, the value it stands for, rounding of a value that is
already binary32, and comparisons as comparisons of positions. -/

namespace Sys2Proof.Machine

/-! ### Packing and unpacking -/

theorem packBits_toNat {neg : Bool} {bits : Nat} (h : bits < 2 ^ 31) :
    (packBits neg bits).toNat = (if neg then 2 ^ 31 else 0) + bits := by
  rw [packBits, BitVec.toNat_ofNat]
  apply Nat.mod_eq_of_lt
  cases neg <;> (simp; omega)

theorem fractionField_eq (w : Word) : fractionField w = w.toNat % 2 ^ 23 := by
  simp [fractionField, BitVec.extractLsb'_toNat]

theorem exponentField_eq (w : Word) : exponentField w = w.toNat / 2 ^ 23 % 2 ^ 8 := by
  simp [exponentField, BitVec.extractLsb'_toNat, Nat.shiftRight_eq_div_pow]

theorem signBit_eq (w : Word) : signBit w = decide (2 ^ 31 ≤ w.toNat) := by
  have h := BitVec.msb_eq_decide w
  rwa [BitVec.msb_eq_getLsbD_last] at h

theorem fractionField_packBits {neg : Bool} {bits : Nat} (h : bits < 2 ^ 31) :
    fractionField (packBits neg bits) = bits % 2 ^ 23 := by
  rw [fractionField_eq, packBits_toNat h]
  cases neg <;> simp
  omega

theorem exponentField_packBits {neg : Bool} {bits : Nat} (h : bits < 2 ^ 31) :
    exponentField (packBits neg bits) = bits / 2 ^ 23 := by
  rw [exponentField_eq, packBits_toNat h]
  cases neg <;> (simp; omega)

theorem signBit_packBits {neg : Bool} {bits : Nat} (h : bits < 2 ^ 31) : signBit (packBits neg bits) = neg := by
  rw [signBit_eq, packBits_toNat h]
  cases neg <;> simp
  omega

/-- What a packed word stands for. -/
theorem unpack_packBits {neg : Bool} {bits : Nat} (h : bits < 2 ^ 31) :
    unpack (packBits neg bits) =
      if bits / 2 ^ 23 = 255 then (if bits % 2 ^ 23 = 0 then .infinite neg else .nan)
      else if bits / 2 ^ 23 = 0 then .finite neg bits
      else .finite neg ((2 ^ 23 + bits % 2 ^ 23) * 2 ^ (bits / 2 ^ 23 - 1)) := by
  rw [unpack, exponentField_packBits h, fractionField_packBits h, signBit_packBits h]
  split
  · rfl
  · split
    · next h0 => rw [Nat.mod_eq_of_lt (Nat.lt_of_div_eq_zero (by decide) h0)]
    · rfl

/-- A significand `q` of at most 24 bits at exponent `shift` stands for `q * 2^shift` units. -/
theorem unpack_packBits_significand {neg : Bool} {q shift : Nat} (hq : q < 2 ^ 24)
    (hs : shift = 0 ∨ 2 ^ 23 ≤ q) (hmax : shift ≤ 253) :
    unpack (packBits neg (shift * 2 ^ 23 + q)) = .finite neg (q * 2 ^ shift) := by
  rw [unpack_packBits (by omega)]
  rcases Nat.lt_or_ge q (2 ^ 23) with hlt | hge
  · obtain rfl : shift = 0 := by omega
    rw [if_neg (by omega), if_pos (by omega)]
    simp
  · rw [if_neg (by omega), if_neg (by omega), show (shift * 2 ^ 23 + q) % 2 ^ 23 = q - 2 ^ 23 by omega,
      show (shift * 2 ^ 23 + q) / 2 ^ 23 - 1 = shift by omega, Nat.add_sub_cancel' hge]

theorem unpack_infinityWord (neg : Bool) : unpack (infinityWord neg) = .infinite neg := by
  cases neg <;> decide

theorem unpack_canonicalNaN : unpack Config.canonicalNaN = .nan := by decide

/-- Every finite word is a significand of at most 24 bits at some exponent. -/
theorem unpack_finite_significand {w : Word} {neg : Bool} {mag : Nat} (h : unpack w = .finite neg mag) :
    ∃ q shift, q < 2 ^ 24 ∧ (shift = 0 ∨ 2 ^ 23 ≤ q) ∧ shift ≤ 253 ∧ mag = q * 2 ^ shift := by
  have hf : fractionField w < 2 ^ 23 := by rw [fractionField_eq]; exact Nat.mod_lt _ (by decide)
  have he : exponentField w < 2 ^ 8 := by rw [exponentField_eq]; exact Nat.mod_lt _ (by decide)
  rw [unpack] at h
  split at h
  · split at h <;> cases h
  · split at h
    · cases h
      exact ⟨fractionField w, 0, by omega, .inl rfl, by omega, by simp⟩
    · cases h
      exact ⟨2 ^ 23 + fractionField w, exponentField w - 1, by omega, .inr (by omega), by omega, rfl⟩

/-! ### Rounding -/

/-- The scale of the rounding of `num / den`: the significand has at most 24 bits, and 24 unless nothing is
dropped. -/
theorem rounding_scale {num den : Nat} (hden : 0 < den) :
    num < 2 ^ 24 * (den * 2 ^ ((num / den).log2 - 23)) ∧
    ((num / den).log2 - 23 = 0 ∨ 2 ^ 23 * (den * 2 ^ ((num / den).log2 - 23)) ≤ num) := by
  generalize hL : (num / den).log2 = L
  have hlt : num / den < 2 ^ (L + 1) := hL ▸ Nat.lt_log2_self
  constructor
  · have h1 : num < 2 ^ (L + 1) * den := (Nat.div_lt_iff_lt_mul hden).1 hlt
    have h2 : 2 ^ (L + 1) ≤ 2 ^ 24 * 2 ^ (L - 23) := by
      rw [← pow_add]; exact Nat.pow_le_pow_right (by decide) (by omega)
    calc num < 2 ^ (L + 1) * den := h1
      _ ≤ 2 ^ 24 * 2 ^ (L - 23) * den := Nat.mul_le_mul_right _ h2
      _ = 2 ^ 24 * (den * 2 ^ (L - 23)) := by ring
  · rcases Nat.eq_zero_or_pos (L - 23) with h0 | hpos
    · exact .inl h0
    · right
      have hne : num / den ≠ 0 := by
        intro h0
        rw [h0] at hL
        simp at hL
        omega
      have hle : 2 ^ L ≤ num / den := hL ▸ Nat.log2_self_le hne
      have h1 : 2 ^ L * den ≤ num := (Nat.le_div_iff_mul_le hden).1 hle
      calc 2 ^ 23 * (den * 2 ^ (L - 23)) = 2 ^ 23 * 2 ^ (L - 23) * den := by ring
        _ = 2 ^ L * den := by rw [← pow_add, show 23 + (L - 23) = L by omega]
        _ ≤ num := h1

theorem roundNearestEven_le (num den : Nat) : roundNearestEven num den ≤ infinityBits := Nat.min_le_left _ _

theorem roundNearestEven_lt (num den : Nat) : roundNearestEven num den < 2 ^ 31 :=
  Nat.lt_of_le_of_lt (roundNearestEven_le num den) (by decide)

/-- A value that is already a binary32 value is its own rounding. -/
theorem roundNearestEven_exact {q shift den : Nat} (hden : 0 < den) (hq : q < 2 ^ 24)
    (hs : shift = 0 ∨ 2 ^ 23 ≤ q) (hmax : shift ≤ 253) :
    roundNearestEven (q * 2 ^ shift * den) den = shift * 2 ^ 23 + q := by
  have hlog : (q * 2 ^ shift).log2 - 23 = shift := by
    rcases hs with rfl | hge
    · rw [pow_zero, Nat.mul_one]
      have : q.log2 < 24 := by
        rcases Nat.eq_zero_or_pos q with rfl | hpos
        · decide
        · exact (Nat.log2_lt (by omega)).2 hq
      omega
    · have h1 : 2 ^ (shift + 23) ≤ q * 2 ^ shift := by
        rw [pow_add, Nat.mul_comm]; exact Nat.mul_le_mul_right _ hge
      have h2 : q * 2 ^ shift < 2 ^ (shift + 24) := by
        rw [pow_add, Nat.mul_comm (2 ^ shift)]; exact Nat.mul_lt_mul_of_pos_right hq (Nat.two_pow_pos _)
      have hne : q * 2 ^ shift ≠ 0 := by have := Nat.two_pow_pos (shift + 23); omega
      have h3 := (Nat.le_log2 hne).2 h1
      have h4 := (Nat.log2_lt hne).2 h2
      omega
  have hstep : 0 < den * 2 ^ shift := Nat.mul_pos hden (Nat.two_pow_pos _)
  have hnum : q * 2 ^ shift * den = q * (den * 2 ^ shift) := by ring
  rw [roundNearestEven]
  simp only [Nat.mul_div_cancel _ hden, hlog]
  rw [hnum, Nat.mul_div_cancel _ hstep, Nat.mul_mod_left, if_neg (by omega), Nat.add_zero]
  exact Nat.min_eq_right (by unfold infinityBits; omega)

/-! ### Comparisons -/

/-- `a < b` is a comparison of positions (R14). -/
theorem lt32_iff {a b : Word} :
    lt32 a b = true ↔ ∃ x y, position (unpack a) = some x ∧ position (unpack b) = some y ∧ x < y := by
  unfold lt32
  cases position (unpack a) <;> cases position (unpack b) <;> simp

/-- `a <= b` is a comparison of positions (R14). -/
theorem le32_iff {a b : Word} :
    le32 a b = true ↔ ∃ x y, position (unpack a) = some x ∧ position (unpack b) = some y ∧ x ≤ y := by
  unfold le32
  cases position (unpack a) <;> cases position (unpack b) <;> simp

/-- `a == b` is a comparison of positions (R14). -/
theorem eq32_iff {a b : Word} :
    eq32 a b = true ↔ ∃ x, position (unpack a) = some x ∧ position (unpack b) = some x := by
  unfold eq32
  cases position (unpack a) <;> cases position (unpack b) <;> simp [eq_comm]

theorem isNaN_iff {w : Word} : isNaN w = true ↔ unpack w = .nan := by
  simp [isNaN]

theorem position_eq_none {d : Datum} : position d = none ↔ d = .nan := by
  cases d with
  | nan => exact ⟨fun _ => rfl, fun _ => rfl⟩
  | infinite neg => exact ⟨(fun h => by cases h), (fun h => by cases h)⟩
  | finite neg mag => exact ⟨(fun h => by cases h), (fun h => by cases h)⟩

theorem lt32_irrefl (a : Word) : lt32 a a = false := by
  by_contra h
  obtain ⟨x, y, hx, hy, hlt⟩ := lt32_iff.1 (Bool.not_eq_false _ ▸ h)
  rw [hx] at hy
  cases hy
  omega

theorem lt32_asymm {a b : Word} (h : lt32 a b = true) : lt32 b a = false := by
  by_contra hba
  obtain ⟨x, y, hx, hy, hlt⟩ := lt32_iff.1 h
  obtain ⟨y', x', hy', hx', hlt'⟩ := lt32_iff.1 (Bool.not_eq_false _ ▸ hba)
  rw [hx] at hx'
  rw [hy] at hy'
  cases hx'
  cases hy'
  omega

/-! ### Signs, infinities and finite words -/

theorem unpack_infinityOf (neg : Bool) : unpack (infinityOf neg) = .infinite neg := by
  cases neg <;> decide

theorem infinityWord_eq (neg : Bool) : infinityWord neg = infinityOf neg := by
  cases neg <;> decide

/-- A finite word is a sign and a magnitude. -/
theorem finiteUnits_eq_some {w : Word} {x : Int} :
    finiteUnits w = some x ↔ ∃ neg mag, unpack w = .finite neg mag ∧ x = signedUnits neg mag := by
  unfold finiteUnits
  cases unpack w <;> simp [eq_comm]

theorem packBits_getLsbD_31 {neg : Bool} {bits : Nat} (h : bits < 2 ^ 31) : (packBits neg bits).getLsbD 31 = neg :=
  signBit_packBits h

/-- Bit 31 of a finite word is its sign. -/
theorem getLsbD_31_of_finite {w : Word} {neg : Bool} {mag : Nat} (h : unpack w = .finite neg mag) :
    w.getLsbD 31 = neg := by
  unfold unpack at h
  split at h
  · split at h <;> cases h
  · split at h <;> (cases h; rfl)

end Sys2Proof.Machine
end

