-- ==== Sys2Proof/Laws/Config.lean ====
section
/-! SUPPORT. The bounds of the open parameter MAX_CAPACITY (R7). -/

namespace Sys2Proof.Config

theorem maxCapacity_pos : 1 ≤ maxCapacity := Nat.succ_le_succ (Nat.zero_le _)

theorem maxCapacity_le : maxCapacity ≤ 16777215 := maxCapacityPred.isLt

theorem lt_two_pow_of_le_maxCapacity {n : Nat} (h : n ≤ maxCapacity) : n < 2 ^ 24 :=
  Nat.lt_of_le_of_lt (h.trans maxCapacity_le) (by decide)

end Sys2Proof.Config
end

