-- ==== Sys2Proof/Laws/Encoding.lean ====
section
/-! SUPPORT. The bits and the fields of a packed command word (R49, R50). -/

namespace Sys2Proof

/-- The bits of a packed command word. -/
theorem packCommand_getLsbD (b a : Word) (cap : BitVec 24) (op : BitVec 4) (i : Nat) :
    (packCommand b a cap op).getLsbD i =
      if i < 4 then op.getLsbD i
      else if i < 8 then false
      else if i < 32 then cap.getLsbD (i - 8)
      else if i < 64 then a.getLsbD (i - 32)
      else b.getLsbD (i - 64) := by
  change BitVec.getLsbD (w := 32 + 32 + 24 + 4 + 4) (b ++ a ++ cap ++ 0#4 ++ op) i = _
  rw [BitVec.getLsbD_append, BitVec.getLsbD_append, BitVec.getLsbD_append, BitVec.getLsbD_append]
  simp only [BitVec.getLsbD_zero, Nat.sub_sub, Nat.reduceAdd]
  by_cases h4 : i < 4
  · simp [h4]
  by_cases h8 : i < 8
  · simp [h4, h8, show i - 4 < 4 by omega]
  by_cases h32 : i < 32
  · simp [h4, h8, h32, show ¬ i - 4 < 4 by omega, show i - 8 < 24 by omega]
  by_cases h64 : i < 64
  · simp [h4, h8, h32, h64, show ¬ i - 4 < 4 by omega, show ¬ i - 8 < 24 by omega,
      show i - 32 < 32 by omega]
  · simp [h4, h8, h32, h64, show ¬ i - 4 < 4 by omega, show ¬ i - 8 < 24 by omega,
      show ¬ i - 32 < 32 by omega]

theorem opField_packCommand (b a : Word) (cap : BitVec 24) (op : BitVec 4) :
    opField (packCommand b a cap op) = op := by
  ext i hi
  simp [opField, packCommand_getLsbD, hi]

theorem rsvField_packCommand (b a : Word) (cap : BitVec 24) (op : BitVec 4) :
    rsvField (packCommand b a cap op) = 0#4 := by
  ext i hi
  simp [rsvField, packCommand_getLsbD, show ¬ 4 + i < 4 by omega, show 4 + i < 8 by omega]

theorem capField_packCommand (b a : Word) (cap : BitVec 24) (op : BitVec 4) :
    capField (packCommand b a cap op) = cap := by
  ext i hi
  simp [capField, packCommand_getLsbD, show ¬ 8 + i < 4 by omega, show ¬ 8 + i < 8 by omega,
    show 8 + i < 32 by omega, BitVec.getLsbD_eq_getElem hi]

theorem aField_packCommand (b a : Word) (cap : BitVec 24) (op : BitVec 4) :
    aField (packCommand b a cap op) = a := by
  ext i hi
  simp [aField, packCommand_getLsbD, show ¬ 32 + i < 4 by omega, show ¬ 32 + i < 8 by omega,
    show 32 + i < 64 by omega, BitVec.getLsbD_eq_getElem hi]

theorem bField_packCommand (b a : Word) (cap : BitVec 24) (op : BitVec 4) :
    bField (packCommand b a cap op) = b := by
  ext i hi
  simp [bField, packCommand_getLsbD, show ¬ 64 + i < 4 by omega, show ¬ 64 + i < 8 by omega,
    show ¬ 64 + i < 32 by omega, BitVec.getLsbD_eq_getElem hi]

/-- A word with `rsv = 0` is packed from its own fields: no bit lies outside them. -/
theorem packCommand_fields {w : Command} (h : rsvField w = 0#4) :
    packCommand (bField w) (aField w) (capField w) (opField w) = w := by
  apply BitVec.eq_of_getLsbD_eq
  intro i hi
  rw [packCommand_getLsbD]
  split
  · next h4 => simp [opField, h4]
  split
  · next h4 h8 =>
    have hb : (rsvField w).getLsbD (i - 4) = false := by rw [h]; simp
    rw [rsvField, BitVec.getLsbD_extractLsb', show 4 + (i - 4) = i by omega] at hb
    simpa [show i - 4 < 4 by omega] using hb.symm
  split
  · simp [capField, show i - 8 < 24 by omega, show 8 + (i - 8) = i by omega]
  split
  · simp [aField, show i - 32 < 32 by omega, show 32 + (i - 32) = i by omega]
  · simp [bField, show i - 64 < 32 by omega, show 64 + (i - 64) = i by omega]

end Sys2Proof
end

