-- ==== Sys2Proof/Laws/State.lean ====
section
/-! SUPPORT. What each named update of the state leaves in each field: one lemma per field per update. -/

namespace Sys2Proof.Machine

variable (s : State)

/-! ### setValid -/

@[simp] theorem State.setValid_valid (v : Bool) : (s.setValid v).valid = v := rfl
@[simp] theorem State.setValid_capacity (v : Bool) : (s.setValid v).capacity = s.capacity := rfl
@[simp] theorem State.setValid_buffer (v : Bool) : (s.setValid v).buffer = s.buffer := rfl
@[simp] theorem State.setValid_writeCursor (v : Bool) : (s.setValid v).writeCursor = s.writeCursor := rfl
@[simp] theorem State.setValid_currentDelay (v : Bool) : (s.setValid v).currentDelay = s.currentDelay := rfl
@[simp] theorem State.setValid_targetDelay (v : Bool) : (s.setValid v).targetDelay = s.targetDelay := rfl
@[simp] theorem State.setValid_currentGain (v : Bool) : (s.setValid v).currentGain = s.currentGain := rfl
@[simp] theorem State.setValid_targetGain (v : Bool) : (s.setValid v).targetGain = s.targetGain := rfl
@[simp] theorem State.setValid_smoothingFactor (v : Bool) : (s.setValid v).smoothingFactor = s.smoothingFactor := rfl
@[simp] theorem State.setValid_rsp (v : Bool) : (s.setValid v).rsp = s.rsp := rfl
@[simp] theorem State.setValid_inputs (v : Bool) : (s.setValid v).inputs = s.inputs := rfl
@[simp] theorem State.setValid_delivered (v : Bool) : (s.setValid v).delivered = s.delivered := rfl

/-! ### setBuffer -/

@[simp] theorem State.setBuffer_valid (m : Memory) : (s.setBuffer m).valid = s.valid := rfl
@[simp] theorem State.setBuffer_capacity (m : Memory) : (s.setBuffer m).capacity = s.capacity := rfl
@[simp] theorem State.setBuffer_buffer (m : Memory) : (s.setBuffer m).buffer = m := rfl
@[simp] theorem State.setBuffer_writeCursor (m : Memory) : (s.setBuffer m).writeCursor = s.writeCursor := rfl
@[simp] theorem State.setBuffer_currentDelay (m : Memory) : (s.setBuffer m).currentDelay = s.currentDelay := rfl
@[simp] theorem State.setBuffer_targetDelay (m : Memory) : (s.setBuffer m).targetDelay = s.targetDelay := rfl
@[simp] theorem State.setBuffer_currentGain (m : Memory) : (s.setBuffer m).currentGain = s.currentGain := rfl
@[simp] theorem State.setBuffer_targetGain (m : Memory) : (s.setBuffer m).targetGain = s.targetGain := rfl
@[simp] theorem State.setBuffer_smoothingFactor (m : Memory) : (s.setBuffer m).smoothingFactor = s.smoothingFactor := rfl
@[simp] theorem State.setBuffer_rsp (m : Memory) : (s.setBuffer m).rsp = s.rsp := rfl
@[simp] theorem State.setBuffer_inputs (m : Memory) : (s.setBuffer m).inputs = s.inputs := rfl
@[simp] theorem State.setBuffer_delivered (m : Memory) : (s.setBuffer m).delivered = s.delivered := rfl

/-! ### setWriteCursor -/

@[simp] theorem State.setWriteCursor_valid (w : BitVec 24) : (s.setWriteCursor w).valid = s.valid := rfl
@[simp] theorem State.setWriteCursor_capacity (w : BitVec 24) : (s.setWriteCursor w).capacity = s.capacity := rfl
@[simp] theorem State.setWriteCursor_buffer (w : BitVec 24) : (s.setWriteCursor w).buffer = s.buffer := rfl
@[simp] theorem State.setWriteCursor_writeCursor (w : BitVec 24) : (s.setWriteCursor w).writeCursor = w := rfl
@[simp] theorem State.setWriteCursor_currentDelay (w : BitVec 24) : (s.setWriteCursor w).currentDelay = s.currentDelay := rfl
@[simp] theorem State.setWriteCursor_targetDelay (w : BitVec 24) : (s.setWriteCursor w).targetDelay = s.targetDelay := rfl
@[simp] theorem State.setWriteCursor_currentGain (w : BitVec 24) : (s.setWriteCursor w).currentGain = s.currentGain := rfl
@[simp] theorem State.setWriteCursor_targetGain (w : BitVec 24) : (s.setWriteCursor w).targetGain = s.targetGain := rfl
@[simp] theorem State.setWriteCursor_smoothingFactor (w : BitVec 24) : (s.setWriteCursor w).smoothingFactor = s.smoothingFactor := rfl
@[simp] theorem State.setWriteCursor_rsp (w : BitVec 24) : (s.setWriteCursor w).rsp = s.rsp := rfl
@[simp] theorem State.setWriteCursor_inputs (w : BitVec 24) : (s.setWriteCursor w).inputs = s.inputs := rfl
@[simp] theorem State.setWriteCursor_delivered (w : BitVec 24) : (s.setWriteCursor w).delivered = s.delivered := rfl

/-! ### setCurrent -/

@[simp] theorem State.setCurrent_valid (d g : Word) : (s.setCurrent d g).valid = s.valid := rfl
@[simp] theorem State.setCurrent_capacity (d g : Word) : (s.setCurrent d g).capacity = s.capacity := rfl
@[simp] theorem State.setCurrent_buffer (d g : Word) : (s.setCurrent d g).buffer = s.buffer := rfl
@[simp] theorem State.setCurrent_writeCursor (d g : Word) : (s.setCurrent d g).writeCursor = s.writeCursor := rfl
@[simp] theorem State.setCurrent_currentDelay (d g : Word) : (s.setCurrent d g).currentDelay = d := rfl
@[simp] theorem State.setCurrent_targetDelay (d g : Word) : (s.setCurrent d g).targetDelay = s.targetDelay := rfl
@[simp] theorem State.setCurrent_currentGain (d g : Word) : (s.setCurrent d g).currentGain = g := rfl
@[simp] theorem State.setCurrent_targetGain (d g : Word) : (s.setCurrent d g).targetGain = s.targetGain := rfl
@[simp] theorem State.setCurrent_smoothingFactor (d g : Word) : (s.setCurrent d g).smoothingFactor = s.smoothingFactor := rfl
@[simp] theorem State.setCurrent_rsp (d g : Word) : (s.setCurrent d g).rsp = s.rsp := rfl
@[simp] theorem State.setCurrent_inputs (d g : Word) : (s.setCurrent d g).inputs = s.inputs := rfl
@[simp] theorem State.setCurrent_delivered (d g : Word) : (s.setCurrent d g).delivered = s.delivered := rfl

/-! ### setTargetDelay -/

@[simp] theorem State.setTargetDelay_valid (d : Word) : (s.setTargetDelay d).valid = s.valid := rfl
@[simp] theorem State.setTargetDelay_capacity (d : Word) : (s.setTargetDelay d).capacity = s.capacity := rfl
@[simp] theorem State.setTargetDelay_buffer (d : Word) : (s.setTargetDelay d).buffer = s.buffer := rfl
@[simp] theorem State.setTargetDelay_writeCursor (d : Word) : (s.setTargetDelay d).writeCursor = s.writeCursor := rfl
@[simp] theorem State.setTargetDelay_currentDelay (d : Word) : (s.setTargetDelay d).currentDelay = s.currentDelay := rfl
@[simp] theorem State.setTargetDelay_targetDelay (d : Word) : (s.setTargetDelay d).targetDelay = d := rfl
@[simp] theorem State.setTargetDelay_currentGain (d : Word) : (s.setTargetDelay d).currentGain = s.currentGain := rfl
@[simp] theorem State.setTargetDelay_targetGain (d : Word) : (s.setTargetDelay d).targetGain = s.targetGain := rfl
@[simp] theorem State.setTargetDelay_smoothingFactor (d : Word) : (s.setTargetDelay d).smoothingFactor = s.smoothingFactor := rfl
@[simp] theorem State.setTargetDelay_rsp (d : Word) : (s.setTargetDelay d).rsp = s.rsp := rfl
@[simp] theorem State.setTargetDelay_inputs (d : Word) : (s.setTargetDelay d).inputs = s.inputs := rfl
@[simp] theorem State.setTargetDelay_delivered (d : Word) : (s.setTargetDelay d).delivered = s.delivered := rfl

/-! ### setTargetGain -/

@[simp] theorem State.setTargetGain_valid (g : Word) : (s.setTargetGain g).valid = s.valid := rfl
@[simp] theorem State.setTargetGain_capacity (g : Word) : (s.setTargetGain g).capacity = s.capacity := rfl
@[simp] theorem State.setTargetGain_buffer (g : Word) : (s.setTargetGain g).buffer = s.buffer := rfl
@[simp] theorem State.setTargetGain_writeCursor (g : Word) : (s.setTargetGain g).writeCursor = s.writeCursor := rfl
@[simp] theorem State.setTargetGain_currentDelay (g : Word) : (s.setTargetGain g).currentDelay = s.currentDelay := rfl
@[simp] theorem State.setTargetGain_targetDelay (g : Word) : (s.setTargetGain g).targetDelay = s.targetDelay := rfl
@[simp] theorem State.setTargetGain_currentGain (g : Word) : (s.setTargetGain g).currentGain = s.currentGain := rfl
@[simp] theorem State.setTargetGain_targetGain (g : Word) : (s.setTargetGain g).targetGain = g := rfl
@[simp] theorem State.setTargetGain_smoothingFactor (g : Word) : (s.setTargetGain g).smoothingFactor = s.smoothingFactor := rfl
@[simp] theorem State.setTargetGain_rsp (g : Word) : (s.setTargetGain g).rsp = s.rsp := rfl
@[simp] theorem State.setTargetGain_inputs (g : Word) : (s.setTargetGain g).inputs = s.inputs := rfl
@[simp] theorem State.setTargetGain_delivered (g : Word) : (s.setTargetGain g).delivered = s.delivered := rfl

/-! ### setSmoothingFactor -/

@[simp] theorem State.setSmoothingFactor_valid (f : Word) : (s.setSmoothingFactor f).valid = s.valid := rfl
@[simp] theorem State.setSmoothingFactor_capacity (f : Word) : (s.setSmoothingFactor f).capacity = s.capacity := rfl
@[simp] theorem State.setSmoothingFactor_buffer (f : Word) : (s.setSmoothingFactor f).buffer = s.buffer := rfl
@[simp] theorem State.setSmoothingFactor_writeCursor (f : Word) : (s.setSmoothingFactor f).writeCursor = s.writeCursor := rfl
@[simp] theorem State.setSmoothingFactor_currentDelay (f : Word) : (s.setSmoothingFactor f).currentDelay = s.currentDelay := rfl
@[simp] theorem State.setSmoothingFactor_targetDelay (f : Word) : (s.setSmoothingFactor f).targetDelay = s.targetDelay := rfl
@[simp] theorem State.setSmoothingFactor_currentGain (f : Word) : (s.setSmoothingFactor f).currentGain = s.currentGain := rfl
@[simp] theorem State.setSmoothingFactor_targetGain (f : Word) : (s.setSmoothingFactor f).targetGain = s.targetGain := rfl
@[simp] theorem State.setSmoothingFactor_smoothingFactor (f : Word) : (s.setSmoothingFactor f).smoothingFactor = f := rfl
@[simp] theorem State.setSmoothingFactor_rsp (f : Word) : (s.setSmoothingFactor f).rsp = s.rsp := rfl
@[simp] theorem State.setSmoothingFactor_inputs (f : Word) : (s.setSmoothingFactor f).inputs = s.inputs := rfl
@[simp] theorem State.setSmoothingFactor_delivered (f : Word) : (s.setSmoothingFactor f).delivered = s.delivered := rfl

/-! ### setRsp -/

@[simp] theorem State.setRsp_valid (r : Option Response) : (s.setRsp r).valid = s.valid := rfl
@[simp] theorem State.setRsp_capacity (r : Option Response) : (s.setRsp r).capacity = s.capacity := rfl
@[simp] theorem State.setRsp_buffer (r : Option Response) : (s.setRsp r).buffer = s.buffer := rfl
@[simp] theorem State.setRsp_writeCursor (r : Option Response) : (s.setRsp r).writeCursor = s.writeCursor := rfl
@[simp] theorem State.setRsp_currentDelay (r : Option Response) : (s.setRsp r).currentDelay = s.currentDelay := rfl
@[simp] theorem State.setRsp_targetDelay (r : Option Response) : (s.setRsp r).targetDelay = s.targetDelay := rfl
@[simp] theorem State.setRsp_currentGain (r : Option Response) : (s.setRsp r).currentGain = s.currentGain := rfl
@[simp] theorem State.setRsp_targetGain (r : Option Response) : (s.setRsp r).targetGain = s.targetGain := rfl
@[simp] theorem State.setRsp_smoothingFactor (r : Option Response) : (s.setRsp r).smoothingFactor = s.smoothingFactor := rfl
@[simp] theorem State.setRsp_rsp (r : Option Response) : (s.setRsp r).rsp = r := rfl
@[simp] theorem State.setRsp_inputs (r : Option Response) : (s.setRsp r).inputs = s.inputs := rfl
@[simp] theorem State.setRsp_delivered (r : Option Response) : (s.setRsp r).delivered = s.delivered := rfl

/-! ### respond and raise -/

@[simp] theorem respond_valid (st : Status) (d : Word) : (respond st d s).valid = s.valid := rfl
@[simp] theorem respond_capacity (st : Status) (d : Word) : (respond st d s).capacity = s.capacity := rfl
@[simp] theorem respond_buffer (st : Status) (d : Word) : (respond st d s).buffer = s.buffer := rfl
@[simp] theorem respond_writeCursor (st : Status) (d : Word) : (respond st d s).writeCursor = s.writeCursor := rfl
@[simp] theorem respond_currentDelay (st : Status) (d : Word) : (respond st d s).currentDelay = s.currentDelay := rfl
@[simp] theorem respond_targetDelay (st : Status) (d : Word) : (respond st d s).targetDelay = s.targetDelay := rfl
@[simp] theorem respond_currentGain (st : Status) (d : Word) : (respond st d s).currentGain = s.currentGain := rfl
@[simp] theorem respond_targetGain (st : Status) (d : Word) : (respond st d s).targetGain = s.targetGain := rfl
@[simp] theorem respond_smoothingFactor (st : Status) (d : Word) : (respond st d s).smoothingFactor = s.smoothingFactor := rfl
@[simp] theorem respond_rsp (st : Status) (d : Word) : (respond st d s).rsp = some (responseWord st d) := rfl
@[simp] theorem respond_inputs (st : Status) (d : Word) : (respond st d s).inputs = s.inputs := rfl
@[simp] theorem respond_delivered (st : Status) (d : Word) : (respond st d s).delivered = s.delivered := rfl
@[simp] theorem raise_valid (st : Status) : (raise st s).valid = s.valid := rfl
@[simp] theorem raise_capacity (st : Status) : (raise st s).capacity = s.capacity := rfl
@[simp] theorem raise_buffer (st : Status) : (raise st s).buffer = s.buffer := rfl
@[simp] theorem raise_writeCursor (st : Status) : (raise st s).writeCursor = s.writeCursor := rfl
@[simp] theorem raise_currentDelay (st : Status) : (raise st s).currentDelay = s.currentDelay := rfl
@[simp] theorem raise_targetDelay (st : Status) : (raise st s).targetDelay = s.targetDelay := rfl
@[simp] theorem raise_currentGain (st : Status) : (raise st s).currentGain = s.currentGain := rfl
@[simp] theorem raise_targetGain (st : Status) : (raise st s).targetGain = s.targetGain := rfl
@[simp] theorem raise_smoothingFactor (st : Status) : (raise st s).smoothingFactor = s.smoothingFactor := rfl
@[simp] theorem raise_rsp (st : Status) : (raise st s).rsp = some (responseWord st 0#32) := rfl
@[simp] theorem raise_inputs (st : Status) : (raise st s).inputs = s.inputs := rfl
@[simp] theorem raise_delivered (st : Status) : (raise st s).delivered = s.delivered := rfl

/-! ### advanceCursor -/

@[simp] theorem advanceCursor_valid : (advanceCursor s).valid = s.valid := rfl
@[simp] theorem advanceCursor_capacity : (advanceCursor s).capacity = s.capacity := rfl
@[simp] theorem advanceCursor_buffer : (advanceCursor s).buffer = s.buffer := rfl
@[simp] theorem advanceCursor_writeCursor : (advanceCursor s).writeCursor = BitVec.ofNat 24 (modCapacity (s.writeCursor.toNat + 1) s.capacity.toNat) := rfl
@[simp] theorem advanceCursor_currentDelay : (advanceCursor s).currentDelay = s.currentDelay := rfl
@[simp] theorem advanceCursor_targetDelay : (advanceCursor s).targetDelay = s.targetDelay := rfl
@[simp] theorem advanceCursor_currentGain : (advanceCursor s).currentGain = s.currentGain := rfl
@[simp] theorem advanceCursor_targetGain : (advanceCursor s).targetGain = s.targetGain := rfl
@[simp] theorem advanceCursor_smoothingFactor : (advanceCursor s).smoothingFactor = s.smoothingFactor := rfl
@[simp] theorem advanceCursor_rsp : (advanceCursor s).rsp = s.rsp := rfl
@[simp] theorem advanceCursor_inputs : (advanceCursor s).inputs = s.inputs := rfl
@[simp] theorem advanceCursor_delivered : (advanceCursor s).delivered = s.delivered := rfl

/-! ### State.reset -/

@[simp] theorem State.reset_valid : State.reset.valid = false := rfl
@[simp] theorem State.reset_capacity : State.reset.capacity = 0#24 := rfl
@[simp] theorem State.reset_buffer : State.reset.buffer = [] := rfl
@[simp] theorem State.reset_writeCursor : State.reset.writeCursor = 0#24 := rfl
@[simp] theorem State.reset_currentDelay : State.reset.currentDelay = 0#32 := rfl
@[simp] theorem State.reset_targetDelay : State.reset.targetDelay = 0#32 := rfl
@[simp] theorem State.reset_currentGain : State.reset.currentGain = 0#32 := rfl
@[simp] theorem State.reset_targetGain : State.reset.targetGain = 0#32 := rfl
@[simp] theorem State.reset_smoothingFactor : State.reset.smoothingFactor = 0#32 := rfl
@[simp] theorem State.reset_rsp : State.reset.rsp = none := rfl
@[simp] theorem State.reset_inputs : State.reset.inputs = [] := rfl
@[simp] theorem State.reset_delivered : State.reset.delivered = [] := rfl

/-! ### sampled, deliver, hardwareReset -/

@[simp] theorem State.sampled_valid : s.sampled.valid = s.valid := rfl
@[simp] theorem State.sampled_capacity : s.sampled.capacity = s.capacity := rfl
@[simp] theorem State.sampled_buffer : s.sampled.buffer = s.buffer := rfl
@[simp] theorem State.sampled_writeCursor : s.sampled.writeCursor = s.writeCursor := rfl
@[simp] theorem State.sampled_currentDelay : s.sampled.currentDelay = s.currentDelay := rfl
@[simp] theorem State.sampled_targetDelay : s.sampled.targetDelay = s.targetDelay := rfl
@[simp] theorem State.sampled_currentGain : s.sampled.currentGain = s.currentGain := rfl
@[simp] theorem State.sampled_targetGain : s.sampled.targetGain = s.targetGain := rfl
@[simp] theorem State.sampled_smoothingFactor : s.sampled.smoothingFactor = s.smoothingFactor := rfl
@[simp] theorem State.sampled_rsp : s.sampled.rsp = s.rsp := rfl
@[simp] theorem State.sampled_inputs : s.sampled.inputs = s.inputs.tail := rfl
@[simp] theorem State.sampled_delivered : s.sampled.delivered = s.delivered := rfl
@[simp] theorem deliver_valid (r : Response) : (deliver r s).valid = s.valid := rfl
@[simp] theorem deliver_capacity (r : Response) : (deliver r s).capacity = s.capacity := rfl
@[simp] theorem deliver_buffer (r : Response) : (deliver r s).buffer = s.buffer := rfl
@[simp] theorem deliver_writeCursor (r : Response) : (deliver r s).writeCursor = s.writeCursor := rfl
@[simp] theorem deliver_currentDelay (r : Response) : (deliver r s).currentDelay = s.currentDelay := rfl
@[simp] theorem deliver_targetDelay (r : Response) : (deliver r s).targetDelay = s.targetDelay := rfl
@[simp] theorem deliver_currentGain (r : Response) : (deliver r s).currentGain = s.currentGain := rfl
@[simp] theorem deliver_targetGain (r : Response) : (deliver r s).targetGain = s.targetGain := rfl
@[simp] theorem deliver_smoothingFactor (r : Response) : (deliver r s).smoothingFactor = s.smoothingFactor := rfl
@[simp] theorem deliver_rsp (r : Response) : (deliver r s).rsp = none := rfl
@[simp] theorem deliver_inputs (r : Response) : (deliver r s).inputs = s.inputs := rfl
@[simp] theorem deliver_delivered (r : Response) : (deliver r s).delivered = s.delivered ++ [r] := rfl
@[simp] theorem hardwareReset_valid : (hardwareReset s).valid = State.reset.valid := rfl
@[simp] theorem hardwareReset_capacity : (hardwareReset s).capacity = State.reset.capacity := rfl
@[simp] theorem hardwareReset_buffer : (hardwareReset s).buffer = State.reset.buffer := rfl
@[simp] theorem hardwareReset_writeCursor : (hardwareReset s).writeCursor = State.reset.writeCursor := rfl
@[simp] theorem hardwareReset_currentDelay : (hardwareReset s).currentDelay = State.reset.currentDelay := rfl
@[simp] theorem hardwareReset_targetDelay : (hardwareReset s).targetDelay = State.reset.targetDelay := rfl
@[simp] theorem hardwareReset_currentGain : (hardwareReset s).currentGain = State.reset.currentGain := rfl
@[simp] theorem hardwareReset_targetGain : (hardwareReset s).targetGain = State.reset.targetGain := rfl
@[simp] theorem hardwareReset_smoothingFactor : (hardwareReset s).smoothingFactor = State.reset.smoothingFactor := rfl
@[simp] theorem hardwareReset_rsp : (hardwareReset s).rsp = State.reset.rsp := rfl
@[simp] theorem hardwareReset_inputs : (hardwareReset s).inputs = s.inputs := rfl
@[simp] theorem hardwareReset_delivered : (hardwareReset s).delivered = s.delivered := rfl

/-! ### smoothParameters and newEngine -/

@[simp] theorem smoothParameters_valid : (smoothParameters s).valid = s.valid := rfl
@[simp] theorem smoothParameters_capacity : (smoothParameters s).capacity = s.capacity := rfl
@[simp] theorem smoothParameters_buffer : (smoothParameters s).buffer = s.buffer := rfl
@[simp] theorem smoothParameters_writeCursor : (smoothParameters s).writeCursor = s.writeCursor := rfl
@[simp] theorem smoothParameters_currentDelay : (smoothParameters s).currentDelay = smoothStep s.currentDelay s.targetDelay s.smoothingFactor := rfl
@[simp] theorem smoothParameters_targetDelay : (smoothParameters s).targetDelay = s.targetDelay := rfl
@[simp] theorem smoothParameters_currentGain : (smoothParameters s).currentGain = smoothStep s.currentGain s.targetGain s.smoothingFactor := rfl
@[simp] theorem smoothParameters_targetGain : (smoothParameters s).targetGain = s.targetGain := rfl
@[simp] theorem smoothParameters_smoothingFactor : (smoothParameters s).smoothingFactor = s.smoothingFactor := rfl
@[simp] theorem smoothParameters_rsp : (smoothParameters s).rsp = s.rsp := rfl
@[simp] theorem smoothParameters_inputs : (smoothParameters s).inputs = s.inputs := rfl
@[simp] theorem smoothParameters_delivered : (smoothParameters s).delivered = s.delivered := rfl
@[simp] theorem newEngine_valid (cap : Nat) (d g : Word) : (newEngine cap d g s).valid = true := rfl
@[simp] theorem newEngine_capacity (cap : Nat) (d g : Word) : (newEngine cap d g s).capacity = BitVec.ofNat 24 cap := rfl
@[simp] theorem newEngine_buffer (cap : Nat) (d g : Word) : (newEngine cap d g s).buffer = Memory.zeroBelow s.buffer cap := rfl
@[simp] theorem newEngine_writeCursor (cap : Nat) (d g : Word) : (newEngine cap d g s).writeCursor = 0#24 := rfl
@[simp] theorem newEngine_currentDelay (cap : Nat) (d g : Word) : (newEngine cap d g s).currentDelay = clampDelay cap d := rfl
@[simp] theorem newEngine_targetDelay (cap : Nat) (d g : Word) : (newEngine cap d g s).targetDelay = clampDelay cap d := rfl
@[simp] theorem newEngine_currentGain (cap : Nat) (d g : Word) : (newEngine cap d g s).currentGain = clampGain g := rfl
@[simp] theorem newEngine_targetGain (cap : Nat) (d g : Word) : (newEngine cap d g s).targetGain = clampGain g := rfl
@[simp] theorem newEngine_smoothingFactor (cap : Nat) (d g : Word) : (newEngine cap d g s).smoothingFactor = Config.defaultSmoothing := rfl
@[simp] theorem newEngine_rsp (cap : Nat) (d g : Word) : (newEngine cap d g s).rsp = s.rsp := rfl
@[simp] theorem newEngine_inputs (cap : Nat) (d g : Word) : (newEngine cap d g s).inputs = s.inputs := rfl
@[simp] theorem newEngine_delivered (cap : Nat) (d g : Word) : (newEngine cap d g s).delivered = s.delivered := rfl

end Sys2Proof.Machine
end

