-- ==== Sys2Proof/Laws/Memory.lean ====
section
/-! SUPPORT. The buffer: read after write, and that every operation keeps the canonical form. -/

namespace Sys2Proof.Machine

theorem Memory.read_nil (i : Nat) : Memory.read [] i = Memory.unlisted := rfl

theorem Memory.read_cons (e : Nat × Word) (m : Memory) (i : Nat) :
    Memory.read (e :: m) i = if e.1 = i then e.2 else Memory.read m i := rfl

theorem Memory.above_iff {i : Nat} {m : Memory} : Memory.above i m = true ↔ ∀ e ∈ m, i < e.1 := by
  simp [Memory.above]

theorem Memory.wf_cons_iff {e : Nat × Word} {m : Memory} :
    Memory.wf (e :: m) = true ↔ e.2 ≠ Memory.unlisted ∧ (∀ x ∈ m, e.1 < x.1) ∧ Memory.wf m = true := by
  obtain ⟨i, v⟩ := e
  simp [Memory.wf, Memory.above, and_assoc]

/-- A slot below every listed one is not listed. -/
theorem Memory.read_of_above {i : Nat} {m : Memory} (h : ∀ e ∈ m, i < e.1) :
    Memory.read m i = Memory.unlisted := by
  induction m with
  | nil => rfl
  | cons e m ih =>
    rw [Memory.read_cons, if_neg (Nat.ne_of_gt (h e (by simp)))]
    exact ih fun x hx => h x (List.mem_cons_of_mem e hx)

theorem Memory.mem_put {i : Nat} {v : Word} {m : Memory} {e : Nat × Word} (h : e ∈ Memory.put i v m) :
    e = (i, v) ∨ e ∈ m := by
  unfold Memory.put at h
  split at h
  · exact .inr h
  · simpa using h

theorem Memory.read_put {i j : Nat} {v : Word} {m : Memory} (h : ∀ e ∈ m, i < e.1) :
    Memory.read (Memory.put i v m) j = if j = i then v else Memory.read m j := by
  unfold Memory.put
  by_cases hv : v = Memory.unlisted
  · rw [if_pos hv]
    split
    · next hj => rw [hj, hv, Memory.read_of_above h]
    · rfl
  · rw [if_neg hv, Memory.read_cons]
    simp only [eq_comm]

theorem Memory.wf_put {i : Nat} {v : Word} {m : Memory} (h : ∀ e ∈ m, i < e.1) (hm : Memory.wf m = true) :
    Memory.wf (Memory.put i v m) = true := by
  unfold Memory.put
  split
  · exact hm
  · next hv => exact Memory.wf_cons_iff.2 ⟨hv, h, hm⟩

theorem Memory.mem_write {m : Memory} {i : Nat} {v : Word} {e : Nat × Word} (h : e ∈ Memory.write m i v) :
    e = (i, v) ∨ e ∈ m := by
  induction m with
  | nil => simpa using Memory.mem_put h
  | cons x m ih =>
    simp only [Memory.write] at h
    split at h
    · exact Memory.mem_put h
    · split at h
      · exact (Memory.mem_put h).imp_right fun hm => List.mem_cons_of_mem x hm
      · rcases List.mem_cons.1 h with rfl | h
        · exact .inr (by simp)
        · exact (ih h).imp_right fun hm => List.mem_cons_of_mem x hm

/-- Writing slot `i` keeps the canonical form. -/
theorem Memory.wf_write {m : Memory} (hm : Memory.wf m = true) (i : Nat) (v : Word) :
    Memory.wf (Memory.write m i v) = true := by
  induction m with
  | nil => exact Memory.wf_put (by simp) rfl
  | cons x m ih =>
    obtain ⟨hx, habove, htail⟩ := Memory.wf_cons_iff.1 hm
    simp only [Memory.write]
    split
    · next hlt =>
      refine Memory.wf_put (fun e he => ?_) hm
      rcases List.mem_cons.1 he with rfl | he
      · exact hlt
      · exact hlt.trans (habove e he)
    · split
      · next heq => exact Memory.wf_put (fun e he => heq ▸ habove e he) htail
      · next hge hne =>
        refine Memory.wf_cons_iff.2 ⟨hx, fun e he => ?_, ih htail⟩
        rcases Memory.mem_write he with rfl | he
        · exact Nat.lt_of_le_of_ne (Nat.le_of_not_lt hge) (Ne.symm hne)
        · exact habove e he

/-- What slot `j` reads after slot `i` is written. -/
theorem Memory.read_write {m : Memory} (hm : Memory.wf m = true) (i j : Nat) (v : Word) :
    Memory.read (Memory.write m i v) j = if j = i then v else Memory.read m j := by
  induction m with
  | nil => exact Memory.read_put (by simp)
  | cons x m ih =>
    obtain ⟨-, habove, htail⟩ := Memory.wf_cons_iff.1 hm
    simp only [Memory.write]
    split
    · next hlt =>
      refine Memory.read_put fun e he => ?_
      rcases List.mem_cons.1 he with rfl | he
      · exact hlt
      · exact hlt.trans (habove e he)
    · split
      · next heq =>
        subst heq
        rw [Memory.read_put habove]
        split
        · rfl
        · next hj => rw [Memory.read_cons, if_neg (Ne.symm hj)]
      · next hne =>
        rw [Memory.read_cons, Memory.read_cons, ih htail]
        split
        · next hxj => rw [if_neg (fun h => hne (h.symm.trans hxj.symm))]
        · rfl

/-- Zero-filling keeps the canonical form. -/
theorem Memory.wf_zeroBelow {m : Memory} (hm : Memory.wf m = true) (n : Nat) :
    Memory.wf (Memory.zeroBelow m n) = true := by
  induction m with
  | nil => rfl
  | cons x m ih =>
    obtain ⟨hx, habove, htail⟩ := Memory.wf_cons_iff.1 hm
    simp only [Memory.zeroBelow, List.filter_cons]
    split
    · exact Memory.wf_cons_iff.2 ⟨hx, fun e he => habove e (List.mem_filter.1 he).1, ih htail⟩
    · exact ih htail

/-- Zero-filling sets the slots below `n` to +0.0 and no other. -/
theorem Memory.read_zeroBelow (m : Memory) (n i : Nat) :
    Memory.read (Memory.zeroBelow m n) i = if i < n then 0x00000000#32 else Memory.read m i := by
  induction m with
  | nil => simp [Memory.zeroBelow, Memory.read, Memory.unlisted]
  | cons x m ih =>
    simp only [Memory.zeroBelow, List.filter_cons, decide_eq_true_eq] at ih ⊢
    split
    · next hx =>
      rw [Memory.read_cons, Memory.read_cons, ih]
      split
      · next hxi => rw [if_neg (by omega)]
      · rfl
    · next hx =>
      rw [ih, Memory.read_cons]
      split
      · rfl
      · next hi => rw [if_neg (by omega)]

theorem Memory.mem_zeroBelow {m : Memory} {n : Nat} {e : Nat × Word} (h : e ∈ Memory.zeroBelow m n) : e ∈ m :=
  (List.mem_filter.1 h).1

theorem reset_memory_wf : Memory.wf State.reset.buffer = true := rfl

end Sys2Proof.Machine
end

