-- ==== Sys2Proof/Laws/Ops.lean ====
section
/-! SUPPORT. One lemma per shared operation: everything it can do. -/

namespace Sys2Proof.Machine

/-! ### Indices -/

/-- The conditional subtraction of R16 is the remainder, on the range R16 states. -/
theorem modCapacity_eq_mod {a n : Nat} (h : a < 2 * n) : modCapacity a n = a % n := by
  unfold modCapacity
  split
  · next hle => rw [Nat.mod_eq_sub_mod hle, Nat.mod_eq_of_lt (by omega)]
  · next hlt => rw [Nat.mod_eq_of_lt (by omega)]

theorem modCapacity_lt {a n : Nat} (h : a < 2 * n) : modCapacity a n < n := by
  unfold modCapacity
  split <;> omega

theorem toNat_ofNat24 {n : Nat} (h : n < 2 ^ 24) : (BitVec.ofNat 24 n).toNat = n := by
  rw [BitVec.toNat_ofNat, Nat.mod_eq_of_lt h]

/-! ### The buffer through the engine -/

theorem memRead_eq_some {i : Nat} {s : State} {v : Word} :
    memRead i s = some v ↔ i < s.capacity.toNat ∧ v = Memory.read s.buffer i := by
  unfold memRead
  split <;> simp_all [eq_comm]

theorem memRead_eq_none {i : Nat} {s : State} : memRead i s = none ↔ s.capacity.toNat ≤ i := by
  simp [memRead]

theorem memWrite_eq_some {i : Nat} {v : Word} {s t : State} :
    memWrite i v s = some t ↔ i < s.capacity.toNat ∧ t = s.setBuffer (Memory.write s.buffer i v) := by
  unfold memWrite
  split <;> simp_all [eq_comm]

theorem memWrite_eq_none {i : Nat} {v : Word} {s : State} : memWrite i v s = none ↔ s.capacity.toNat ≤ i := by
  simp [memWrite]

theorem advanceCursor_toNat {s : State} (h : s.writeCursor.toNat < s.capacity.toNat) :
    (advanceCursor s).writeCursor.toNat = (s.writeCursor.toNat + 1) % s.capacity.toNat := by
  have hlt : s.writeCursor.toNat + 1 < 2 * s.capacity.toNat := by omega
  rw [advanceCursor_writeCursor, toNat_ofNat24 ((modCapacity_lt hlt).trans s.capacity.isLt),
    modCapacity_eq_mod hlt]

/-! ### Responses -/

/-- The bits of a response word (R54). -/
theorem responseWord_getLsbD (st : Status) (d : Word) (i : Nat) :
    (responseWord st d).getLsbD i =
      if i < 2 then (Status.code st).getLsbD i else if i < 32 then false else d.getLsbD (i - 32) := by
  change BitVec.getLsbD (w := 32 + 30 + 2) (d ++ 0#30 ++ Status.code st) i = _
  rw [BitVec.getLsbD_append, BitVec.getLsbD_append]
  by_cases h1 : i < 2
  · simp [h1]
  · by_cases h2 : i < 32
    · simp [h1, h2, show i - 2 < 30 by omega]
    · simp [h1, h2, show ¬ i - 2 < 30 by omega, Nat.sub_sub]

@[simp] theorem responseStatus_responseWord (st : Status) (d : Word) :
    responseStatus (responseWord st d) = Status.code st := by
  ext i hi
  simp [responseStatus, responseWord_getLsbD, hi]

@[simp] theorem responseData_responseWord (st : Status) (d : Word) : responseData (responseWord st d) = d := by
  ext i hi
  simp [responseData, responseWord_getLsbD, show ¬ 32 + i < 2 by omega, BitVec.getLsbD_eq_getElem hi]

/-- A response made by `responseWord` is one of R54 when its data is 0 or its status OK. -/
theorem responseWord_ok {st : Status} {d : Word} (h : st = .ok ∨ d = 0#32) : ResponseOk (responseWord st d) := by
  refine ⟨?_, fun hne => ?_⟩
  · ext i hi
    simp [responseWord_getLsbD, show ¬ 2 + i < 2 by omega, show 2 + i < 32 by omega]
  · rw [responseStatus_responseWord] at hne
    rw [responseData_responseWord]
    exact h.resolve_left fun h' => hne (by rw [h'])

/-! ### Commands -/

/-- Everything CREATE can do. -/
theorem execCreate_cases {cap : Nat} {d g : Word} {s t : State} (h : execCreate cap d g s = .next t) :
    ((cap = 0 ∨ Config.maxCapacity < cap) ∧ t = raise .invalidCapacity s) ∨
    (1 ≤ cap ∧ cap ≤ Config.maxCapacity ∧ t = respond .ok 0#32 (newEngine cap d g s)) := by
  obtain rfl : createOn Config.maxCapacity cap d g s = t := by simpa [execCreate] using h
  unfold createOn
  split
  · next hbad => exact .inl ⟨hbad, rfl⟩
  · next hgood => exact .inr ⟨by omega, by omega, rfl⟩

/-- Everything a setter can do. -/
theorem setParameter_cases (write : State → State) (s : State) :
    (s.valid = false ∧ setParameter write s = raise .noEngine s) ∨
    (s.valid = true ∧ setParameter write s = respond .ok 0#32 (write s)) := by
  unfold setParameter
  cases s.valid <;> simp

/-- Everything DESTROY can do. -/
theorem execDestroy_cases {s t : State} (h : execDestroy s = .next t) :
    (s.valid = false ∧ t = raise .noEngine s) ∨
    (s.valid = true ∧ t = respond .ok 0#32 (s.setValid false)) := by
  obtain rfl : (if s.valid then respond .ok 0#32 (s.setValid false) else raise .noEngine s) = t := by
    simpa [execDestroy] using h
  cases s.valid <;> simp

/-- Everything steps 2 and 3 of PROCESS can do when they answer a sample. -/
theorem delayedSample_ok {s : State} {y : Word} (h : delayedSample s = .ok y) :
    ∃ p, readPosition s.writeCursor.toNat s.currentDelay s.capacity.toNat = some p ∧
      p.i0 < s.capacity.toNat ∧ p.i1 < s.capacity.toNat ∧
      y = interpolate (Memory.read s.buffer p.i0) (Memory.read s.buffer p.i1) p.f := by
  unfold delayedSample at h
  split at h
  · simp at h
  · next p hp =>
    split at h
    · next b0 b1 h0 h1 =>
      obtain ⟨hi0, rfl⟩ := memRead_eq_some.1 h0
      obtain ⟨hi1, rfl⟩ := memRead_eq_some.1 h1
      exact ⟨p, hp, hi0, hi1, by simpa using h.symm⟩
    · simp at h
    · simp at h

/-- Steps 2 and 3 of PROCESS answer a sample when the position they compute lies in the buffer. -/
theorem delayedSample_of_position {s : State} {p : ReadPos}
    (hp : readPosition s.writeCursor.toNat s.currentDelay s.capacity.toNat = some p)
    (h0 : p.i0 < s.capacity.toNat) (h1 : p.i1 < s.capacity.toNat) :
    delayedSample s = .ok (interpolate (Memory.read s.buffer p.i0) (Memory.read s.buffer p.i1) p.f) := by
  simp [delayedSample, hp, memRead, h0, h1]

/-- The state steps 4 to 6 of PROCESS leave. -/
def storedState (x delayed : Word) (s : State) : State :=
  let v := allpassStored x delayed s.currentGain
  respond .ok (allpassOutput delayed s.currentGain v)
    (advanceCursor (s.setBuffer (Memory.write s.buffer s.writeCursor.toNat v)))

theorem storeAndAnswer_eq (x delayed : Word) (s : State) :
    storeAndAnswer x delayed s =
      if s.writeCursor.toNat < s.capacity.toNat then .next (storedState x delayed s)
      else .fault .slotOutsideBuffer := by
  unfold storeAndAnswer memWrite storedState
  dsimp only
  by_cases h : s.writeCursor.toNat < s.capacity.toNat
  · rw [if_pos h, if_pos h]
  · rw [if_neg h, if_neg h]

/-- Everything PROCESS can do when it answers a next state. -/
theorem execProcess_cases {x : Word} {s t : State} (h : execProcess x s = .next t) :
    (s.valid = false ∧ t = raise .noEngine s) ∨
    (s.valid = true ∧ s.writeCursor.toNat < s.capacity.toNat ∧
      ∃ y, delayedSample (smoothParameters s) = .ok y ∧ t = storedState x y (smoothParameters s)) := by
  unfold execProcess at h
  split at h
  · next hv =>
    split at h
    · next y hy =>
      rw [storeAndAnswer_eq] at h
      split at h
      · next hc => exact .inr ⟨hv, hc, y, hy, by simpa using h.symm⟩
      · simp at h
    · simp at h
  · next hv => exact .inl ⟨by simpa using hv, by simpa using h.symm⟩

/-! ### One step -/

/-- What an edge does at the port. -/
theorem portEvent_cases (s : State) :
    (s.pins.rst = true ∧ s.portEvent = .reset) ∨
    (s.pins.rst = false ∧ ∃ r, s.rsp = some r ∧
      ((s.pins.rspReady = true ∧ s.portEvent = .deliver r) ∨
       (s.pins.rspReady = false ∧ s.portEvent = .nothing))) ∨
    (s.pins.rst = false ∧ s.rsp = none ∧
      ((s.pins.cmdValid = true ∧ s.portEvent = .accept s.pins.cmdWord) ∨
       (s.pins.cmdValid = false ∧ s.portEvent = .nothing))) := by
  unfold State.portEvent
  cases s.pins.rst <;> cases s.rsp <;> cases s.pins.rspReady <;> cases s.pins.cmdValid <;> simp

/-- Everything a step can do when it answers a next state. -/
theorem step_cases {s t : State} (h : step s = .next t) :
    (s.portEvent = .reset ∧ t = hardwareReset s.sampled) ∨
    (∃ r, s.portEvent = .deliver r ∧ t = deliver r s.sampled) ∨
    (∃ w i, s.portEvent = .accept w ∧ decode w = .ok i ∧ exec i s.sampled = .next t) ∨
    (∃ w e, s.portEvent = .accept w ∧ decode w = .error e ∧ t = raise .illegalCommand s.sampled) ∨
    (s.portEvent = .nothing ∧ t = s.sampled) := by
  unfold step at h
  split at h
  · next hp => exact .inl ⟨hp, by simpa using h.symm⟩
  · next r hp => exact .inr (.inl ⟨r, hp, by simpa using h.symm⟩)
  · next w hp =>
    split at h
    · next i hi => exact .inr (.inr (.inl ⟨w, i, hp, hi, h⟩))
    · next e he => exact .inr (.inr (.inr (.inl ⟨w, e, hp, he, by simpa using h.symm⟩)))
  · next hp => exact .inr (.inr (.inr (.inr ⟨hp, by simpa using h.symm⟩)))

end Sys2Proof.Machine
end

