-- ==== Sys2Proof/Laws/PerInstr.lean ====
section
/-! SUPPORT. Statements for all instructions, one lemma per constructor of Instr. -/

namespace Sys2Proof.Laws.TableRow

/-- The encoding of an instruction belongs to the row of the opcode table that has its mnemonic. -/
def Statement (i : Instr) : Prop :=
  ∃ r, r ∈ opcodeTable ∧ r.mnemonic = i.mnemonic ∧ r.accepts (encode i) = true

/-- A row accepts a word when every bit that its mask selects is as its pattern says. -/
theorem accepts_iff_bits (r : OpcodeRow) (w : Command) :
    r.accepts w = true ↔
      ∀ i, i < 96 → (w.getLsbD i && r.mask.getLsbD i) = r.pattern.getLsbD i := by
  rw [OpcodeRow.accepts, beq_iff_eq]
  refine ⟨fun h i _ => ?_, fun h => BitVec.eq_of_getLsbD_eq fun i hi => ?_⟩
  · rw [← BitVec.getLsbD_and, h]
  · rw [BitVec.getLsbD_and, h i hi]

theorem create (cap : Nat) (d g : Word) : Statement (.create cap d g) := by
  refine ⟨opcodeTable[0], by decide, rfl, ?_⟩
  rw [accepts_iff_bits]
  intro i hi
  simp only [encode, packCommand_getLsbD]
  interval_cases i <;> simp [opcodeTable]

theorem process (x : Word) : Statement (.process x) := by
  refine ⟨opcodeTable[1], by decide, rfl, ?_⟩
  rw [accepts_iff_bits]
  intro i hi
  simp only [encode, packCommand_getLsbD]
  interval_cases i <;> simp [opcodeTable]

theorem setDelay (d : Word) : Statement (.setDelay d) := by
  refine ⟨opcodeTable[2], by decide, rfl, ?_⟩
  rw [accepts_iff_bits]
  intro i hi
  simp only [encode, packCommand_getLsbD]
  interval_cases i <;> simp [opcodeTable]

theorem setGain (g : Word) : Statement (.setGain g) := by
  refine ⟨opcodeTable[3], by decide, rfl, ?_⟩
  rw [accepts_iff_bits]
  intro i hi
  simp only [encode, packCommand_getLsbD]
  interval_cases i <;> simp [opcodeTable]

theorem setSmoothing (f : Word) : Statement (.setSmoothing f) := by
  refine ⟨opcodeTable[4], by decide, rfl, ?_⟩
  rw [accepts_iff_bits]
  intro i hi
  simp only [encode, packCommand_getLsbD]
  interval_cases i <;> simp [opcodeTable]

theorem destroy : Statement .destroy :=
  ⟨opcodeTable[5], by decide, rfl, by decide⟩

end Sys2Proof.Laws.TableRow
end

