-- ==== Sys2Proof/Tests/Slice0.lean ====
section
/-! SUPPORT. Tests with results taken from the spec's tables (95_test_vectors.md, 30_encoding.md), and for every
statement with hypotheses a concrete case that meets them. -/

namespace Sys2Proof.Tests

open Sys2Proof.Machine

/-! ### Well-formedness: the one check refuses an ill-formed term -/

theorem test_wellFormed_refuses_wide_capacity : (Instr.create 16777216 0#32 0#32).wellFormed = false := by decide

theorem test_wellFormed_accepts_widest_capacity : (Instr.create 16777215 0#32 0#32).wellFormed = true := by decide

/-! ### Decoding: words written out from the encodings of R49 to R52 -/

/-- `CREATE 4, 2.0, 0.5`: B = 0x3F000000, A = 0x40000000, cap = 4, rsv = 0, op = 1 (30_encoding.md, example). -/
theorem test_decode_create :
    decode 0b001111110000000000000000000000000100000000000000000000000000000000000000000000000000010000000001#96 =
      .ok (.create 4 0x40000000#32 0x3F000000#32) := by decide

/-- `PROCESS 1.0`: B = 0, A = 0x3F800000, cap = 0, rsv = 0, op = 2 (R61). -/
theorem test_decode_process :
    decode 0b000000000000000000000000000000000011111110000000000000000000000000000000000000000000000000000010#96 =
      .ok (.process 0x3F800000#32) := by decide

/-- `SET_DELAY 3.0`: A = 0x40400000, op = 3 (P3). -/
theorem test_decode_setDelay :
    decode 0b000000000000000000000000000000000100000001000000000000000000000000000000000000000000000000000011#96 =
      .ok (.setDelay 0x40400000#32) := by decide

/-- `SET_GAIN -0.5`: A = 0xBF000000, op = 4 (P5). -/
theorem test_decode_setGain :
    decode 0b000000000000000000000000000000001011111100000000000000000000000000000000000000000000000000000100#96 =
      .ok (.setGain 0xBF000000#32) := by decide

/-- `SET_SMOOTHING -0.0`: A = 0x80000000, op = 5 (SRC4). -/
theorem test_decode_setSmoothing :
    decode 0b000000000000000000000000000000001000000000000000000000000000000000000000000000000000000000000101#96 =
      .ok (.setSmoothing 0x80000000#32) := by decide

/-- `DESTROY`: only op = 6 (R60). -/
theorem test_decode_destroy : decode 0b0110#96 = .ok .destroy := by decide

/-- Vectors X1 to X3: reserved opcodes. -/
theorem test_decode_reserved_opcodes :
    decode 0x0#96 = .error .reservedOpcode ∧ decode 0x7#96 = .error .reservedOpcode ∧
    decode 0xF#96 = .error .reservedOpcode := by decide

/-- Vectors X4 to X10: a reserved or must-be-zero field that is not zero. -/
theorem test_decode_nonzero_fields :
    decode 0x12#96 = .error .reservedField ∧
    decode 0x000000003F80000000000102#96 = .error .capacityNotZero ∧
    decode 0x000000013F80000000000002#96 = .error .operandBNotZero ∧
    decode 0x000000004040000000000103#96 = .error .capacityNotZero ∧
    decode 0x000000000000000100000006#96 = .error .operandANotZero ∧
    decode 0x800000000000000000000006#96 = .error .operandBNotZero ∧
    decode 0x11#96 = .error .reservedField := by decide

/-- No two rows of the opcode table accept one word. -/
theorem test_opcode_rows_are_disjoint :
    opcodeTable.Pairwise fun r q => (r.mask &&& q.mask &&& (r.pattern ^^^ q.pattern)) ≠ 0#96 := by decide

theorem test_decodeTableWord : decodeTableWord 96 0x40400000_00000003 = some (.setDelay 0x40400000#32) := by decide

/-- The first byte of a byte transport holds `op` (D25): `PROCESS 1.0`. -/
theorem test_decodeBytes :
    decodeBytes [0x02#8, 0#8, 0#8, 0#8, 0#8, 0#8, 0x80#8, 0x3F#8, 0#8, 0#8, 0#8, 0#8] =
      some (.ok (.process 0x3F800000#32)) := by decide

/-- The assembler on lines of P1 and SRC5 and on the `.cmd` line of P5. -/
theorem test_assembler :
    assembleText "CREATE 4, 2.0, 0.5 ; P1".toList = some [0x3F0000004000000000000401#96] ∧
    assembleText "PROCESS_BLOCK 1.0, 2.0, 3.0".toList =
      some [0x3F80000000000002#96, 0x4000000000000002#96, 0x4040000000000002#96] ∧
    assembleText ".cmd 0x000000000000000000000012".toList = some [0x12#96] := by decide

/-- `0.1`, `1e-9` and `-inf` as 95_test_vectors.md writes them in bits. -/
theorem test_assembler_literals :
    (parseFval "0.1".toList).map Fval.toWord = some 0x3DCCCCCD#32 ∧
    (parseFval "1e-9".toList).map Fval.toWord = some 0x3089705F#32 ∧
    (parseFval "-inf".toList).map Fval.toWord = some 0xFF800000#32 := by decide

/-! ### The arithmetic and the stages, on the spec's vectors -/

/-- AP11 and AP10: `v` and `y` of AllpassCore, rounded and overflowing. -/
theorem test_allpass :
    allpassStored 0x3DCCCCCD#32 0x3F333333#32 0x3E99999A#32 = 0x3E9EB852#32 ∧
    allpassOutput 0x3F333333#32 0x3E99999A#32 0x3E9EB852#32 = 0x3F1B645A#32 ∧
    allpassStored 0x7F61B1E6#32 0x7F61B1E6#32 0x3F800000#32 = 0x7F800000#32 := by decide

/-- AP8, AP9 and AP13: the sign of a zero, and `0 * inf`. -/
theorem test_allpass_zeros_and_infinity :
    allpassStored 0x80000000#32 0x00000000#32 0x3F000000#32 = 0x00000000#32 ∧
    allpassStored 0x80000000#32 0x80000000#32 0x3F000000#32 = 0x80000000#32 ∧
    allpassStored 0x00000000#32 0x7F800000#32 0x00000000#32 = 0x7FC00000#32 := by decide

/-- S4, S8, S9 and S10: a plain step, the overshoot snap, the no-progress snap, the target's sign. -/
theorem test_smoothStep :
    smoothStep 0x3F000000#32 0x3F800000#32 0x3F7FC000#32 = 0x3F002000#32 ∧
    smoothStep 0x40800000#32 0x3F8CCCCD#32 0x33000000#32 = 0x3F8CCCCD#32 ∧
    smoothStep 0x42C80000#32 0x42C80001#32 0x3F000000#32 = 0x42C80001#32 ∧
    smoothStep 0x80000000#32 0x00000000#32 0x3F000000#32 = 0x00000000#32 := by decide

/-- RP5, RP6, RP8 and RP16. -/
theorem test_readPosition :
    readPosition 2 0x3E800000#32 4 = some { i0 := 1, i1 := 2, f := 0x3F400000#32 } ∧
    readPosition 0 0x3089705F#32 4 = some { i0 := 0, i1 := 1, f := 0#32 } ∧
    readPosition 3 0x403FFFFF#32 8 = some { i0 := 0, i1 := 1, f := 0x34800000#32 } ∧
    readPosition 16777214 0x4B7FFFFF#32 16777215 = some { i0 := 16777214, i1 := 0, f := 0#32 } := by decide

/-- IP5, IP11 and IP12. -/
theorem test_interpolate :
    interpolate 0x3F800000#32 0x7F800000#32 0#32 = 0x3F800000#32 ∧
    interpolate 0x3DCCCCCD#32 0x3E4CCCCD#32 0x3E99999A#32 = 0x3E051EB8#32 ∧
    interpolate 0x7F61B1E6#32 0xFF61B1E6#32 0x3F000000#32 = 0xFF800000#32 := by decide

/-! ### The commands -/

/-- The engine state left by a command, if it left one. -/
def after (o : Host.Outcome State Fault Refusal) : Option State :=
  match o with
  | .next t => some t
  | .fault _ => none
  | .refused _ => none

/-- Status and data of the response a command leaves. -/
def answer (o : Host.Outcome State Fault Refusal) : Option (BitVec 2 × Word) :=
  (after o).bind fun t => t.rsp.map fun r => (responseStatus r, responseData r)

/-- CR1 on a chip of depth 16. -/
theorem test_create_cr1 :
    createOn 16 4 0x40000000#32 0x3F000000#32 State.reset =
      { State.reset with
        valid := true, capacity := 4#24, currentDelay := 0x40000000#32, targetDelay := 0x40000000#32
        currentGain := 0x3F000000#32, targetGain := 0x3F000000#32, smoothingFactor := 0x3F7E0000#32
        rsp := some 0#64 } := by decide

/-- X15: `cap = 17 > MAX_CAPACITY = 16`; X14: `cap = 0`. -/
theorem test_create_invalid :
    createOn 16 17 0#32 0#32 State.reset = { State.reset with rsp := some 1#64 } ∧
    createOn 16 0 0#32 0#32 State.reset = { State.reset with rsp := some 1#64 } := by decide

/-- P1, command 2: slot 0 takes 1.0, the cursor advances, the answer is -0.5. -/
theorem test_process_p1 :
    after (exec (.process 0x3F800000#32) (newEngine 4 0x40000000#32 0x3F000000#32 State.reset)) =
      some { newEngine 4 0x40000000#32 0x3F000000#32 State.reset with
        buffer := [(0, 0x3F800000#32)], writeCursor := 1#24, rsp := some 0xBF00000000000000#64 } := by decide

/-- P3, command 11 from the state its trace gives: a smoothing step of both parameters, a fractional read, and
rounded results. -/
theorem test_process_p3 :
    (after (exec (.process 0#32)
      { State.reset with
        valid := true, capacity := 8#24, writeCursor := 4#24
        buffer := [(0, 0x3F800000#32), (2, 0x3E280000#32), (3, 0x3EC30000#32)]
        currentDelay := 0x40340000#32, targetDelay := 0x40400000#32
        currentGain := 0x3EF00000#32, targetGain := 0x3F000000#32, smoothingFactor := 0x3F000000#32 })).map
      (fun t => (t.currentDelay, t.currentGain, Memory.read t.buffer 4, t.writeCursor, t.rsp)) =
    some (0x403A0000#32, 0x3EF80000#32, 0x3BF42000#32, 5#24, some 0x3C40E04000000000#64) := by decide

/-- K3 and K6 on an engine of capacity 4. -/
theorem test_setDelay :
    (after (exec (.setDelay 0x41100000#32) (newEngine 4 0#32 0#32 State.reset))).map State.targetDelay =
      some 0x40800000#32 ∧
    (after (exec (.setDelay 0x7FC00000#32) (newEngine 4 0#32 0#32 State.reset))).map State.targetDelay =
      some 0x00000000#32 := by decide

/-- K9, K13 and K14. -/
theorem test_setGain :
    (after (exec (.setGain 0x40000000#32) (newEngine 4 0#32 0#32 State.reset))).map State.targetGain =
      some 0x3F800000#32 ∧
    (after (exec (.setGain 0x7FC00000#32) (newEngine 4 0#32 0#32 State.reset))).map State.targetGain =
      some 0xBF800000#32 ∧
    (after (exec (.setGain 0x80000000#32) (newEngine 4 0#32 0#32 State.reset))).map State.targetGain =
      some 0x80000000#32 := by decide

/-- K16 and K17. -/
theorem test_setSmoothing :
    (after (exec (.setSmoothing 0x3F800000#32) (newEngine 4 0#32 0#32 State.reset))).map State.smoothingFactor =
      some 0x3F7FC000#32 ∧
    (after (exec (.setSmoothing 0x3F7FBE77#32) (newEngine 4 0#32 0#32 State.reset))).map State.smoothingFactor =
      some 0x3F7FBE77#32 := by decide

/-- DS1 and DS2. -/
theorem test_destroy :
    (after (exec .destroy (newEngine 4 0#32 0#32 State.reset))).map State.valid = some false ∧
    answer (exec .destroy State.reset) = some (2#2, 0#32) := by decide

/-- X11: a word with `B != 0` and no engine answers ILLEGAL_COMMAND, not NO_ENGINE; X13: NO_ENGINE. -/
theorem test_step_priority :
    answer (step (State.reset.withFetchWord 96 0x000000013F80000000000002)) = some (3#2, 0#32) ∧
    answer (step (State.reset.withFetchWord 96 0x3F80000000000002)) = some (2#2, 0#32) := by decide

/-! ### Witnesses: for each statement with hypotheses, a case that meets them together -/

/-- A live engine of capacity 1, which every `MAX_CAPACITY` admits. -/
def live : State :=
  { State.reset with
    valid := true, capacity := 1#24
    currentDelay := 0x3F000000#32, targetDelay := 0x3F800000#32
    currentGain := 0x00000000#32, targetGain := 0x3F000000#32, smoothingFactor := 0x3F7E0000#32 }

/-- A state of the invariant whose ranges are shown by evaluation. -/
theorem live_inv : Inv live where
  engine _ :=
    { capacity_pos := by decide
      capacity_le := Config.maxCapacity_pos
      cursor_lt := by decide
      currentDelay_range := ⟨by decide, by decide⟩
      targetDelay_range := ⟨by decide, by decide⟩
      currentGain_range := ⟨by decide, by decide⟩
      targetGain_range := ⟨by decide, by decide⟩
      smoothing_range := ⟨by decide, by decide⟩ }
  buffer_wf := rfl
  buffer_depth := by simp [live]
  rsp_ok := by simp [live]
  delivered_ok := by simp [live]

/-- The port of a state with a word on it does not touch its invariant. -/
theorem withFetchWord_inv {s : State} (h : Inv s) (w : Nat) : Inv (s.withFetchWord 96 w) where
  engine hv := by
    obtain ⟨h1, h2, h3, h4, h5, h6, h7, h8⟩ := h.engine hv
    exact ⟨h1, h2, h3, h4, h5, h6, h7, h8⟩
  buffer_wf := h.buffer_wf
  buffer_depth := h.buffer_depth
  rsp_ok := by simp [State.withFetchWord]
  delivered_ok := h.delivered_ok

theorem witness_DecodeOfEncodeIsTheCommand :
    (Instr.create 0 0#32 0#32).wellFormed = true ∧ (Instr.create 16777215 0#32 0#32).wellFormed = true := by decide

theorem witness_EncodeOfDecodeIsTheWord :
    decode 0x7FC00000FF800000FFFFFF01#96 = .ok (.create 16777215 0xFF800000#32 0x7FC00000#32) := by decide

/-- One word for each way of being illegal, at the edge of its range, and a state that accepts it. -/
theorem witness_IllegalWordsAnswerIllegalCommand :
    IllegalWord 0x0#96 ∧ IllegalWord 0x7#96 ∧ IllegalWord 0xF#96 ∧ IllegalWord 0x16#96 ∧
    IllegalWord 0x102#96 ∧ IllegalWord 0x000000010000000000000002#96 ∧ IllegalWord 0x100000006#96 ∧
    (State.reset.withFetchWord 96 0x7).portEvent = .accept 0x7#96 := by
  refine ⟨?_, ?_, ?_, ?_, ?_, ?_, ?_, by decide⟩ <;> unfold IllegalWord <;> decide

/-- Bytes that make a command, and the first and last byte of each transport. -/
theorem witness_TransportsCarryTheWholeCommand :
    commandOfBytes [0x06#8, 0#8, 0#8, 0#8, 0#8, 0#8, 0#8, 0#8, 0#8, 0#8, 0#8, 0#8] = some 0x6#96 ∧
    (commandBytes 0x3F0000004000000000000401#96)[0]? = some 0x01#8 ∧
    (commandBytes 0x3F0000004000000000000401#96)[11]? = some 0x3F#8 ∧
    (responseBytes 0xBF00000000000002#64)[0]? = some 0x02#8 ∧
    (responseBytes 0xBF00000000000002#64)[7]? = some 0xBF#8 := by decide

theorem witness_AssemblerEmitsLegalWords :
    (∀ w, AsmLine.create 16777215 .nan (.inf true) ≠ .raw w) ∧
    (∀ cap d g, AsmLine.create 16777215 .nan (.inf true) = .create cap d g → cap < 2 ^ 24) ∧
    0xFF8000007FC00000FFFFFF01#96 ∈ assembleLine (.create 16777215 .nan (.inf true)) ∧
    assembleText ['D', 'E', 'S', 'T', 'R', 'O', 'Y'] = some [0x6#96] ∧
    (lexLine ['D', 'E', 'S', 'T', 'R', 'O', 'Y'] []).head? ≠ some (.word ['.', 'c', 'm', 'd']) :=
  ⟨by simp, by rintro cap d g h; cases h; decide, by decide, by decide, by decide⟩

/-- The texts of the widest CREATE, of a block and of a raw word are lines of R56. -/
theorem witness_TextAssemblesToItsCommand :
    (Instr.create 16777215 0x7FC00000#32 0xFF800000#32).wellFormed = true ∧
    commandText (.create 16777215 0x7FC00000#32 0xFF800000#32) =
      "CREATE 0xFFFFFF, bits(0x7FC00000), bits(0xFF800000)".toList ∧
    blockText [0x3F800000#32, 0x80000000#32] = "PROCESS_BLOCK bits(0x3F800000), bits(0x80000000)".toList ∧
    rawText 0x12#96 = ".cmd 0x000000000000000000000012".toList := by decide

theorem witness_StepRunsTheAcceptedCommand :
    let s := { State.reset with inputs := [PortIn.offer 0x6#96] }
    s.pins.rst = false ∧ s.rsp = none ∧ s.pins.cmdValid = true ∧ decode s.pins.cmdWord = .ok .destroy := by decide

/-- A response on offer, with the host taking it and not taking it. -/
theorem witness_OneCommandIsOutstanding :
    let s := { State.reset with rsp := some 2#64, inputs := [PortIn.take] }
    let t := { State.reset with rsp := some 2#64, inputs := [PortIn.offer 0x6#96] }
    s.pins.rst = false ∧ s.pins.rspReady = true ∧ t.pins.rst = false ∧ t.pins.rspReady = false ∧
    State.reset.pins.rst = false ∧ State.reset.rsp = none ∧ State.reset.pins.cmdValid = false := by decide

theorem witness_ResetEdgeDropsTheEngineAndTheResponse :
    let s := { live with rsp := some 0#64, inputs := [PortIn.resetPin] }
    s.pins.rst = true ∧ (hardwareReset s.sampled).pins.rst = false := by decide

theorem witness_ResetLeavesNoEngine : ∀ cap d g, Instr.destroy ≠ .create cap d g := by simp

theorem witness_OnlyACommandOrAResetChangesTheEngine :
    (∃ t, step (live.withFetchWord 96 0x6) = .next t ∧ t.engineOnly ≠ (live.withFetchWord 96 0x6).engineOnly) ∧
    live.pins.rst = false ∧ live.rsp = none ∧ live.pins.cmdValid = false :=
  ⟨⟨_, rfl, by decide⟩, rfl, rfl, rfl⟩

theorem witness_ErrorsWriteNoState :
    (State.reset.withFetchWord 96 0x6).portEvent = .accept 0x6#96 ∧
    ∃ t, step (State.reset.withFetchWord 96 0x6) = .next t ∧ t.rsp.map responseStatus = some 2#2 :=
  ⟨by decide, _, rfl, by decide⟩

/-- A word for each clause: illegal, CREATE of capacity 0 and of capacity 1, DESTROY without and with an engine. -/
theorem witness_StatusFollowsThePriority :
    Inv (live.withFetchWord 96 0x6) ∧ (live.withFetchWord 96 0x6).portEvent = .accept 0x6#96 ∧
    IllegalWord 0x11#96 ∧ ¬ IllegalWord 0x1#96 ∧ wordOp 0x1#96 = 1 ∧ wordCap 0x1#96 = 0 ∧
    ¬ IllegalWord 0x101#96 ∧ wordCap 0x101#96 = 1 ∧ 1 ≤ Config.maxCapacity ∧
    ¬ IllegalWord 0x6#96 ∧ wordOp 0x6#96 ≠ 1 ∧ State.reset.valid = false ∧ live.valid = true := by
  refine ⟨withFetchWord_inv live_inv _, by decide, ?_, ?_, by decide, by decide, ?_, by decide,
    Config.maxCapacity_pos, ?_, by decide, rfl, rfl⟩ <;> unfold IllegalWord <;> decide

/-- The opcode of each command, legal and illegal, on an accepting port; and the capacities 0 and 1. -/
theorem witness_CreateBuildsANewEngine :
    (State.reset.withFetchWord 96 0x1).portEvent = .accept 0x1#96 ∧ wordOp 0x1#96 = 1 ∧ ¬ IllegalWord 0x1#96 ∧
    wordOp 0x11#96 = 1 ∧ IllegalWord 0x11#96 ∧ 1 ≤ Config.maxCapacity := by
  refine ⟨by decide, by decide, ?_, by decide, ?_, Config.maxCapacity_pos⟩ <;> unfold IllegalWord <;> decide

theorem witness_DestroyClearsValidOnly :
    (live.withFetchWord 96 0x6).portEvent = .accept 0x6#96 ∧ wordOp 0x6#96 = 6 ∧ ¬ IllegalWord 0x6#96 ∧
    wordOp 0x100000006#96 = 6 ∧ IllegalWord 0x100000006#96 ∧ live.valid = true ∧ State.reset.valid = false := by
  refine ⟨by decide, by decide, ?_, by decide, ?_, rfl, rfl⟩ <;> unfold IllegalWord <;> decide

theorem witness_SetDelayWritesTheTargetOnly :
    (live.withFetchWord 96 0x3).portEvent = .accept 0x3#96 ∧ wordOp 0x3#96 = 3 ∧ ¬ IllegalWord 0x3#96 ∧
    wordOp 0x103#96 = 3 ∧ IllegalWord 0x103#96 ∧ live.valid = true ∧ State.reset.valid = false := by
  refine ⟨by decide, by decide, ?_, by decide, ?_, rfl, rfl⟩ <;> unfold IllegalWord <;> decide

theorem witness_SetGainWritesTheTargetOnly :
    (live.withFetchWord 96 0x4).portEvent = .accept 0x4#96 ∧ wordOp 0x4#96 = 4 ∧ ¬ IllegalWord 0x4#96 ∧
    wordOp 0x14#96 = 4 ∧ IllegalWord 0x14#96 ∧ live.valid = true ∧ State.reset.valid = false := by
  refine ⟨by decide, by decide, ?_, by decide, ?_, rfl, rfl⟩ <;> unfold IllegalWord <;> decide

theorem witness_SetSmoothingWritesTheFactorOnly :
    (live.withFetchWord 96 0x5).portEvent = .accept 0x5#96 ∧ wordOp 0x5#96 = 5 ∧ ¬ IllegalWord 0x5#96 ∧
    wordOp 0x105#96 = 5 ∧ IllegalWord 0x105#96 ∧ live.valid = true ∧ State.reset.valid = false := by
  refine ⟨by decide, by decide, ?_, by decide, ?_, rfl, rfl⟩ <;> unfold IllegalWord <;> decide

theorem witness_ProcessFiltersOneSample :
    (live.withFetchWord 96 0x2).portEvent = .accept 0x2#96 ∧ wordOp 0x2#96 = 2 ∧ ¬ IllegalWord 0x2#96 ∧
    wordOp 0x12#96 = 2 ∧ IllegalWord 0x12#96 ∧ Inv live ∧ live.valid = true ∧ State.reset.valid = false := by
  refine ⟨by decide, by decide, ?_, by decide, ?_, live_inv, rfl, rfl⟩ <;> unfold IllegalWord <;> decide

/-- The values next beyond each bound, and a NaN. -/
theorem witness_OutOfRangeParametersActAsTheBound :
    lt32 0x3F800000#32 0x3F800001#32 = true ∧ lt32 0xBF800001#32 0xBF800000#32 = true ∧
    lt32 0x80000001#32 0x00000000#32 = true ∧ lt32 (i2f live.capacity.toNat) 0x3F800001#32 = true ∧
    lt32 (i2f 16777215) 0x4B800000#32 = true ∧ lt32 0x3F7FC000#32 0x3F7FC001#32 = true ∧
    isNaN 0xFFC00000#32 = true := by decide

theorem witness_NoEngineWritesNothing :
    (∀ cap d g, Instr.process 0x7FC00000#32 ≠ .create cap d g) ∧ State.reset.valid = false := ⟨by simp, rfl⟩

theorem witness_NoErrorAfterConstruction : Inv live ∧ live.valid = true := ⟨live_inv, rfl⟩

theorem witness_OnlyTheListedCommandsWriteEachRegister :
    Memory.wf live.buffer = true ∧ ∃ t, exec (.process 0x3F800000#32) live = .next t ∧
      Memory.read t.buffer 0 ≠ Memory.read live.buffer 0 ∧ t.currentDelay ≠ live.currentDelay ∧
      t.currentGain ≠ live.currentGain :=
  ⟨rfl, _, rfl, by decide, by decide, by decide⟩

/-- A sum of two odd subnormals, and the largest finite value twice, which overflows. -/
theorem witness_AddAndSubRoundOnceToNearestEven :
    finiteUnits 0x00000001#32 = some 1 ∧ finiteUnits 0x80000003#32 = some (-3) ∧
    finiteUnits 0x7F7FFFFF#32 ≠ none := by decide

theorem witness_MulRoundsOnceToNearestEven :
    finiteUnits 0x007FFFFF#32 = some 8388607 ∧ finiteUnits 0x7F7FFFFF#32 ≠ none := by decide

theorem witness_NaNResultsAreCanonical :
    isNaN (add32 0x7F800000#32 0xFF800000#32) = true ∧ isNaN (sub32 0x7F800000#32 0x7F800000#32) = true ∧
    isNaN (mul32 0x00000000#32 0x7F800000#32) = true ∧ isNaN 0xFF800001#32 = true := by decide

/-- A zero, the smallest negative and the largest finite operand beside an infinity. -/
theorem witness_InfinitiesFollowIEEE754 :
    finiteUnits 0x80000000#32 = some 0 ∧ finiteUnits 0x80000001#32 = some (-1) ∧
    finiteUnits 0x7F7FFFFF#32 ≠ none := by decide

/-- Operands whose sum is zero, of two signs and both -0, and whose difference is zero. -/
theorem witness_ZeroResultsTakeTheirSign :
    finiteUnits 0x00000001#32 = some 1 ∧ finiteUnits 0x80000001#32 = some (-1) ∧ (1 : Int) + -1 = 0 ∧
    finiteUnits 0x80000000#32 = some 0 ∧ (0 : Int) + 0 = 0 ∧ (1 : Int) - 1 = 0 := by decide

theorem witness_ComparisonsAndConversionsAreExact :
    isNaN 0x7F800001#32 = true ∧ finiteUnits 0x80000001#32 = some (-1) ∧ finiteUnits 0x00000000#32 = some 0 ∧
    floorInt 0x4B7FFFFF#32 = some 16777215 := by decide

/-- A value in each of the clauses, at both bounds. -/
theorem witness_ClampFollowsItsRule :
    le32 0xBF800000#32 0x3F800000#32 = true ∧ isNaN 0x7F800001#32 = true ∧
    lt32 0xBF800001#32 0xBF800000#32 = true ∧ lt32 0x3F800000#32 0x3F800001#32 = true ∧
    InRange 0xBF800000#32 0x3F800000#32 0xBF800000#32 ∧ InRange 0xBF800000#32 0x3F800000#32 0x3F800000#32 := by
  unfold InRange
  decide

theorem witness_ModCapacityIsTheRemainder :
    (1 ≤ 1 ∧ 1 ≤ 2 * 1 - 1 ∧ 1 ≤ 1) ∧ (1 ≤ 5 ∧ 4 ≤ 2 * 5 - 1 ∧ 4 < 5) ∧ 9 ≤ 2 * 5 - 1 := by decide

theorem witness_SlotsHoldWhatWasWritten :
    Memory.wf live.buffer = true ∧ 0 < live.capacity.toNat ∧ live.capacity.toNat ≤ 1 := by decide

/-- Targets above, below and at the current value, and the factors 0 and -0. -/
theorem witness_SmoothStepMovesTowardItsTarget :
    isNaN 0x00000000#32 = false ∧ isNaN 0x40400000#32 = false ∧ lt32 0x00000000#32 0x40400000#32 = true ∧
    eq32 0x80000000#32 0x00000000#32 = true ∧ eq32 0x00000001#32 0x00000000#32 = false ∧
    eq32 0x3F7FC000#32 0x00000000#32 = false := by decide

/-- S4, S8 and S9: the formula's result strictly between, at or past the target, and not moved. -/
theorem witness_SmoothStepFormula :
    let r := fun c t s => add32 c (mul32 (sub32 t c) (sub32 0x3F800000#32 s))
    (lt32 0x3F000000#32 (r 0x3F000000#32 0x3F800000#32 0x3F7FC000#32) = true ∧
      lt32 (r 0x3F000000#32 0x3F800000#32 0x3F7FC000#32) 0x3F800000#32 = true) ∧
    lt32 0x3F8CCCCD#32 (r 0x40800000#32 0x3F8CCCCD#32 0x33000000#32) = false ∧
    lt32 0x42C80000#32 (r 0x42C80000#32 0x42C80001#32 0x3F000000#32) = false := by decide

theorem witness_SmoothStepKeepsEveryRange :
    InRange 0x3F800000#32 0x40400000#32 0x3F800000#32 ∧ InRange 0x3F800000#32 0x40400000#32 0x40400000#32 := by
  unfold InRange
  decide

theorem witness_SmoothingReachesBothTargets : Inv live ∧ live.valid = true ∧ live.currentDelay ≠ live.targetDelay :=
  ⟨live_inv, rfl, by decide⟩

/-- An integral delay at the top of the range, a fraction, and a fraction so small that `f` rounds to 1.0. -/
theorem witness_ReadPositionIsTheFractionalDelay :
    16777214 < 16777215 ∧ InRange 0x00000000#32 (i2f 16777215) 0x4B7FFFFF#32 ∧
    InRange 0x00000000#32 (i2f 16777215) 0x3E800000#32 ∧ InRange 0x00000000#32 (i2f 16777215) 0x00000001#32 ∧
    finiteUnits 0x4B7FFFFF#32 ≠ none ∧ finiteUnits 0x3E800000#32 ≠ none ∧ finiteUnits 0x00000001#32 = some 1 := by
  unfold InRange
  decide

theorem witness_DelayZeroActsAsDelayCapacity : 0 < 1 ∧ 16777214 < 16777215 ∧ 16777215 < 2 ^ 24 := by decide

theorem witness_IntegralDelayReturnsTheValueStoredThen :
    Inv live ∧ live.valid = true ∧
    ∃ s1, exec (.process 0x3F800000#32) live = .next s1 ∧ execAll (([] : List Word).map .process) s1 = .next s1 ∧
      ([] : List Word).length + 1 ≤ live.capacity.toNat :=
  ⟨live_inv, rfl, _, rfl, rfl, by decide⟩

theorem witness_InterpolateAtItsEnds :
    eq32 0x80000000#32 0x00000000#32 = true ∧ lt32 0x00000000#32 0x00000001#32 = true ∧
    lt32 0x3F7FFFFF#32 0x3F800000#32 = true ∧ finiteUnits 0x80000000#32 ≠ none ∧ isNaN 0x7F800001#32 = true ∧
    eq32 0x00000001#32 0x00000000#32 = false ∧ infinityOf false = 0x7F800000#32 ∧
    infinityOf true = 0xFF800000#32 := by decide

/-- An engine of capacity 2 and the delays 1.5 (`k = 2 = capacity`), 0.5, and `2^-26`, whose weight rounds to 1. -/
theorem witness_FractionalDelayMixesTheTwoStoredThen :
    let s := { live with capacity := 2#24 }
    Memory.wf s.buffer = true ∧ s.valid = true ∧
    (∃ s1 s2, exec (.process 0x3F800000#32) s = .next s1 ∧ exec (.process 0x40000000#32) s1 = .next s2 ∧
      execAll (([] : List Word).map .process) s2 = .next s2 ∧ ([] : List Word).length + 2 ≤ s.capacity.toNat) ∧
    lt32 (i2f 1) 0x3FC00000#32 = true ∧ lt32 0x3FC00000#32 (i2f 2) = true ∧
    lt32 0x00000000#32 0x3F000000#32 = true ∧ lt32 0x3F000000#32 0x3F800000#32 = true ∧
    lt32 0x00000000#32 0x32800000#32 = true ∧ eq32 (sub32 0x3F800000#32 0x32800000#32) 0x3F800000#32 = true :=
  ⟨rfl, rfl, ⟨_, _, rfl, rfl, rfl, by decide⟩, by decide, by decide, by decide, by decide, by decide, by decide⟩

theorem witness_NaNSamplesSpread : isNaN 0x7F800001#32 = true ∧ isNaN 0xFFFFFFFF#32 = true := by decide

theorem witness_ZeroGainIsAPureDelay :
    finiteUnits 0x80000000#32 ≠ none ∧ finiteUnits 0x7F7FFFFF#32 ≠ none ∧ eq32 0x80000000#32 0x00000000#32 = true := by
  decide

theorem witness_ImpulseAnswersMinusTheGain :
    Memory.wf State.reset.buffer = true ∧ 1 ≤ 1 ∧ 1 ≤ Config.maxCapacity := ⟨rfl, le_refl 1, Config.maxCapacity_pos⟩

theorem witness_EveryStepKeepsTheInvariant :
    Inv (live.withFetchWord 96 0x2) ∧ ∃ t, step (live.withFetchWord 96 0x2) = .next t :=
  ⟨withFetchWord_inv live_inv _, _, rfl⟩

theorem witness_InvariantStatesNeverStop : Inv (live.withFetchWord 96 0x2) := withFetchWord_inv live_inv _

/-- Two states without an engine that differ in every register. -/
theorem witness_UnspecifiedStateIsNeverObserved :
    Inv State.reset ∧ Inv { live with valid := false } ∧ SameObservable State.reset { live with valid := false } := by
  refine ⟨⟨by simp, rfl, by simp, by simp, by simp⟩,
    ⟨by simp, rfl, live_inv.buffer_depth, live_inv.rsp_ok, live_inv.delivered_ok⟩, ?_⟩
  constructor <;> simp [live]

theorem witness_CreateForgetsTheOldEngine :
    1 ≤ Config.maxCapacity ∧ live.inputs = State.reset.inputs ∧ live.delivered = State.reset.delivered ∧
    live.valid ≠ State.reset.valid := ⟨Config.maxCapacity_pos, rfl, rfl, by decide⟩

theorem witness_BlockEqualsItsSamplesInOrder :
    Inv live ∧ live.valid = true ∧ live.rsp = none ∧ State.reset.valid = false ∧ State.reset.rsp = none :=
  ⟨live_inv, rfl, rfl, rfl, rfl⟩

theorem witness_BootWithOneCreate : (1 : Nat) ≤ 1 ∧ 1 ≤ Config.maxCapacity := ⟨le_refl 1, Config.maxCapacity_pos⟩

end Sys2Proof.Tests
end

section
/-! PROOFS. Rounding to nearest, ties to even (R12): the rounded word is nearest among all finite words. -/

namespace Sys2Proof.Machine

/-! ### Signed magnitudes -/

@[simp] theorem natAbs_signedUnits (neg : Bool) (mag : Nat) : (signedUnits neg mag).natAbs = mag := by
  cases neg <;> simp [signedUnits]

@[simp] theorem signedUnits_zero (neg : Bool) : signedUnits neg 0 = 0 := by
  cases neg <;> rfl

theorem signedUnits_not (neg : Bool) (mag : Nat) : signedUnits (!neg) mag = -signedUnits neg mag := by
  cases neg <;> simp [signedUnits]

theorem signedUnits_mul (na nb : Bool) (ma mb : Nat) :
    signedUnits na ma * signedUnits nb mb = signedUnits (na ^^ nb) (ma * mb) := by
  cases na <;> cases nb <;> simp [signedUnits]

theorem signedUnits_natAbs (x : Int) : signedUnits (decide (x < 0)) x.natAbs = x := by
  rcases lt_or_ge x 0 with hneg | hpos
  · simp [signedUnits, hneg, abs_of_neg hneg]
  · simp [signedUnits, not_lt.2 hpos, abs_of_nonneg hpos]

theorem signedUnits_eq_zero {neg : Bool} {mag : Nat} : signedUnits neg mag = 0 ↔ mag = 0 := by
  rw [← Int.natAbs_eq_zero, natAbs_signedUnits]

/-- The sign of a value that is not zero. -/
theorem signedUnits_neg_iff {neg : Bool} {mag : Nat} (h : mag ≠ 0) : decide (signedUnits neg mag < 0) = neg := by
  cases neg <;> simp [signedUnits]
  omega

/-! ### Division rounded to nearest, ties to even -/

/-- `num / step` rounded to the nearest whole number, ties to even. -/
def divNearestEven (num step : Nat) : Nat :=
  num / step + if step < 2 * (num % step) ∨ (2 * (num % step) = step ∧ num / step % 2 = 1) then 1 else 0

/-- How many low bits the significand of `num / den` units drops. -/
def droppedBits (num den : Nat) : Nat := (num / den).log2 - 23

/-- The significand of `num / den` units, rounded; at most `2^24`, which is the carry into the exponent. -/
def roundedSignificand (num den : Nat) : Nat := divNearestEven num (den * 2 ^ droppedBits num den)

theorem roundNearestEven_eq (num den : Nat) :
    roundNearestEven num den = min infinityBits (droppedBits num den * 2 ^ 23 + roundedSignificand num den) := by
  rw [roundedSignificand, divNearestEven, ← Nat.add_assoc]
  rfl

@[simp] theorem roundNearestEven_zero (den : Nat) : roundNearestEven 0 den = 0 := by
  simp [roundNearestEven]

/-- The quotient is off by at most half a step, and by exactly half a step only when it is even. -/
theorem divNearestEven_half_step (num : Nat) {step : Nat} (hstep : 0 < step) :
    2 * ((divNearestEven num step : Int) * step - num).natAbs ≤ step ∧
    (2 * ((divNearestEven num step : Int) * step - num).natAbs = step → divNearestEven num step % 2 = 0) := by
  have hr : num % step < step := Nat.mod_lt _ hstep
  have hnum : (num : Int) = (num / step : Nat) * (step : Int) + (num % step : Nat) := by
    exact_mod_cast (Nat.div_add_mod' num step).symm
  unfold divNearestEven
  generalize num / step = q at *
  generalize num % step = r at *
  split
  · next hup =>
    have herr : ((q + 1 : Nat) : Int) * step - num = step - r := by rw [hnum]; push_cast; ring
    rw [herr]
    omega
  · next hdown =>
    have herr : ((q + 0 : Nat) : Int) * step - num = -r := by rw [hnum]; push_cast; ring
    rw [herr]
    omega

/-- An even quotient is reached half a step below it. -/
theorem le_divNearestEven_iff {num step k : Nat} (hstep : 0 < step) (heven : k % 2 = 0) :
    k ≤ divNearestEven num step ↔ 2 * k * step ≤ 2 * num + step := by
  obtain ⟨hhalf, htie⟩ := divNearestEven_half_step num hstep
  generalize divNearestEven num step = d at *
  rw [show (d : Int) * step = (d * step : Nat) by push_cast; rfl] at hhalf htie
  rcases Nat.lt_trichotomy (d + 1) k with hlt | rfl | hle
  · have hmul : (d + 2) * step ≤ k * step := Nat.mul_le_mul_right _ hlt
    rw [Nat.add_mul] at hmul
    rw [Nat.mul_assoc]
    omega
  · rw [Nat.mul_assoc, Nat.add_mul]
    omega
  · have hmul : k * step ≤ d * step := Nat.mul_le_mul_right _ (Nat.le_of_lt_succ hle)
    rw [Nat.mul_assoc]
    omega

/-- No multiple of the step is nearer, and an equally near one gives way to an even quotient. -/
theorem divNearestEven_nearest (num : Nat) {step : Nat} (hstep : 0 < step) (j : Int) :
    ((divNearestEven num step : Int) * step - num).natAbs ≤ (j * step - num).natAbs ∧
    (j ≠ divNearestEven num step →
      ((divNearestEven num step : Int) * step - num).natAbs = (j * step - num).natAbs →
      divNearestEven num step % 2 = 0) := by
  obtain ⟨hhalf, htie⟩ := divNearestEven_half_step num hstep
  generalize divNearestEven num step = d at *
  rcases eq_or_ne j d with rfl | hne
  · simp
  · have hapart : step ≤ ((j - d) * step).natAbs := by
      rw [Int.natAbs_mul, Int.natAbs_natCast]
      exact Nat.le_mul_of_pos_left _ (by omega)
    have hsum : j * step - num = (d * step - num) + (j - d) * step := by ring
    rw [hsum]
    omega

/-! ### The significand and its scale -/

theorem roundedSignificand_le {num den : Nat} (hden : 0 < den) : roundedSignificand num den ≤ 2 ^ 24 := by
  have hstep : 0 < den * 2 ^ droppedBits num den := Nat.mul_pos hden (Nat.two_pow_pos _)
  have hq : num / (den * 2 ^ droppedBits num den) < 2 ^ 24 :=
    (Nat.div_lt_iff_lt_mul hstep).2 (rounding_scale hden).1
  rw [roundedSignificand, divNearestEven]
  split <;> omega

/-- The significand has 24 bits unless nothing is dropped. -/
theorem roundedSignificand_ge {num den : Nat} (hden : 0 < den) :
    droppedBits num den = 0 ∨ 2 ^ 23 ≤ roundedSignificand num den := by
  have hstep : 0 < den * 2 ^ droppedBits num den := Nat.mul_pos hden (Nat.two_pow_pos _)
  refine (rounding_scale hden).2.imp_right fun hle => ?_
  exact Nat.le_add_right_of_le ((Nat.le_div_iff_mul_le hstep).2 hle)

/-- The overflow threshold in units of half the last place of the greatest finite value. -/
theorem overflow_threshold_eq : 2 ^ 277 - 2 ^ 252 = (2 ^ 25 - 1) * 2 ^ 252 := by
  rw [show 277 = 25 + 252 from rfl, pow_add, Nat.sub_mul, Nat.one_mul]

theorem overflow_threshold_pos : 0 < 2 ^ 277 - 2 ^ 252 := by
  rw [overflow_threshold_eq]
  exact Nat.mul_pos (by decide) (Nat.two_pow_pos 252)

/-- The rounded bits reach those of infinity exactly from `2^128 - 2^103` on. -/
theorem infinityBits_le_iff {num den : Nat} (hden : 0 < den) :
    infinityBits ≤ droppedBits num den * 2 ^ 23 + roundedSignificand num den ↔
      (2 ^ 277 - 2 ^ 252) * den ≤ num := by
  have hunit : 0 < 2 ^ 252 * den := Nat.mul_pos (Nat.two_pow_pos _) hden
  have hscale : num < 2 ^ 24 * (den * 2 ^ droppedBits num den) ∧
    (droppedBits num den = 0 ∨ 2 ^ 23 * (den * 2 ^ droppedBits num den) ≤ num) := rounding_scale hden
  have hle := roundedSignificand_le (num := num) hden
  have hge := roundedSignificand_ge (num := num) hden
  have htop : 2 ^ 24 ≤ roundedSignificand num den ↔ _ :=
    le_divNearestEven_iff (Nat.mul_pos hden (Nat.two_pow_pos (droppedBits num den))) (by decide)
  rw [overflow_threshold_eq, Nat.mul_assoc, infinityBits]
  generalize roundedSignificand num den = d at *
  generalize droppedBits num den = s at *
  rcases Nat.lt_trichotomy s 253 with hlt | rfl | hgt
  · have hstep : den * 2 ^ s ≤ 2 ^ 252 * den := by
      rw [Nat.mul_comm]; exact Nat.mul_le_mul_right _ (Nat.pow_le_pow_right (by decide) (by omega))
    omega
  · have hstep : den * 2 ^ 253 = 2 * (2 ^ 252 * den) := by rw [show 253 = 252 + 1 from rfl, pow_succ]; ring
    omega
  · have hstep : 2 ^ 2 * (2 ^ 252 * den) ≤ den * 2 ^ s := by
      rw [← Nat.mul_assoc, ← pow_add, Nat.mul_comm]
      exact Nat.mul_le_mul_left _ (Nat.pow_le_pow_right (by decide) (by omega))
    omega

/-! ### The rounded word -/

/-- A significand that has carried to `2^24` stands for `2^24 * 2^shift` units too. -/
theorem unpack_packBits_carry {neg : Bool} {q shift : Nat} (hq : q ≤ 2 ^ 24)
    (hs : shift = 0 ∨ 2 ^ 23 ≤ q) (hfin : shift * 2 ^ 23 + q < infinityBits) :
    unpack (packBits neg (shift * 2 ^ 23 + q)) = .finite neg (q * 2 ^ shift) := by
  rw [infinityBits] at hfin
  rcases Nat.lt_or_eq_of_le hq with hlt | rfl
  · exact unpack_packBits_significand hlt hs (by omega)
  · rw [show shift * 2 ^ 23 + 2 ^ 24 = (shift + 1) * 2 ^ 23 + 2 ^ 23 by ring,
      unpack_packBits_significand (by decide) (.inr le_rfl) (by omega)]
    congr 1
    ring

/-- Below the overflow threshold the rounded bits are the significand beside its exponent. -/
theorem roundNearestEven_of_lt {num den : Nat} (hden : 0 < den) (h : num < (2 ^ 277 - 2 ^ 252) * den) :
    droppedBits num den * 2 ^ 23 + roundedSignificand num den < infinityBits ∧
    roundNearestEven num den = droppedBits num den * 2 ^ 23 + roundedSignificand num den := by
  have hfin := Nat.lt_of_not_le (mt (infinityBits_le_iff hden).1 (Nat.not_le_of_lt h))
  exact ⟨hfin, by rw [roundNearestEven_eq, Nat.min_eq_right (Nat.le_of_lt hfin)]⟩

/-- Below the overflow threshold the rounded word is finite. -/
theorem unpack_rounded_of_lt {neg : Bool} {num den : Nat} (hden : 0 < den)
    (h : num < (2 ^ 277 - 2 ^ 252) * den) :
    unpack (packBits neg (roundNearestEven num den)) =
      .finite neg (roundedSignificand num den * 2 ^ droppedBits num den) := by
  obtain ⟨hfin, hbits⟩ := roundNearestEven_of_lt hden h
  rw [hbits]
  exact unpack_packBits_carry (roundedSignificand_le hden) (roundedSignificand_ge hden) hfin

/-- From the overflow threshold on the rounded word is an infinity. -/
theorem unpack_rounded_of_ge {neg : Bool} {num den : Nat} (hden : 0 < den)
    (h : (2 ^ 277 - 2 ^ 252) * den ≤ num) :
    unpack (packBits neg (roundNearestEven num den)) = .infinite neg := by
  rw [roundNearestEven_eq, Nat.min_eq_left ((infinityBits_le_iff hden).2 h)]
  exact unpack_infinityWord neg

/-- A finite value has a magnitude of at most 24 significant bits. -/
theorem natAbs_of_finiteUnits {c : Word} {cu : Int} (h : finiteUnits c = some cu) :
    ∃ q shift, q < 2 ^ 24 ∧ shift ≤ 253 ∧ cu.natAbs = q * 2 ^ shift := by
  obtain ⟨neg, mag, hc, rfl⟩ := finiteUnits_eq_some.1 h
  obtain ⟨q, shift, hq, -, hshift, rfl⟩ := unpack_finite_significand hc
  exact ⟨q, shift, hq, hshift, natAbs_signedUnits _ _⟩

/-- A value of 24 significant bits is a multiple of `2^s`, or less than any value that needs 24 bits at that scale. -/
theorem multiple_or_small {cu : Int} {q k : Nat} (hq : q < 2 ^ 24) (hcu : cu.natAbs = q * 2 ^ k) (s : Nat) :
    (∃ j : Int, cu = j * 2 ^ s) ∨ (0 < s ∧ cu.natAbs < 2 ^ 23 * 2 ^ s) := by
  rcases Nat.lt_or_ge k s with hlt | hge
  · refine .inr ⟨by omega, ?_⟩
    calc cu.natAbs = q * 2 ^ k := hcu
      _ < 2 ^ 24 * 2 ^ k := Nat.mul_lt_mul_of_pos_right hq (Nat.two_pow_pos k)
      _ = 2 ^ 23 * 2 ^ (k + 1) := by ring
      _ ≤ 2 ^ 23 * 2 ^ s := Nat.mul_le_mul_left _ (Nat.pow_le_pow_right (by decide) hlt)
  · have hdvd : ((2 ^ s : Nat) : Int) ∣ cu :=
      Int.natCast_dvd.2 (hcu ▸ Dvd.dvd.mul_left (pow_dvd_pow 2 hge) q)
    obtain ⟨j, rfl⟩ := hdvd
    exact .inl ⟨j, by push_cast; ring⟩

/-- Among the values of 24 significant bits the rounded magnitude is nearest, and an equally near one gives way to
an even significand. -/
theorem roundedSignificand_nearest (num : Nat) {den q k : Nat} {cu : Int} (hden : 0 < den) (hq : q < 2 ^ 24)
    (hcu : cu.natAbs = q * 2 ^ k) :
    ((roundedSignificand num den * 2 ^ droppedBits num den : Nat) * (den : Int) - num).natAbs ≤
      (cu * den - num).natAbs ∧
    (cu ≠ (roundedSignificand num den * 2 ^ droppedBits num den : Nat) →
      ((roundedSignificand num den * 2 ^ droppedBits num den : Nat) * (den : Int) - num).natAbs =
        (cu * den - num).natAbs →
      roundedSignificand num den % 2 = 0) := by
  have hnearest := divNearestEven_nearest num (Nat.mul_pos hden (Nat.two_pow_pos (droppedBits num den)))
  have hscale := (rounding_scale (num := num) hden).2
  rw [← roundedSignificand] at hnearest
  rw [← droppedBits] at hscale
  generalize roundedSignificand num den = d at *
  generalize droppedBits num den = s at *
  have hunits (j : Int) : j * (den * 2 ^ s : Nat) = j * 2 ^ s * den := by push_cast; ring
  simp only [hunits] at hnearest
  rw [Nat.cast_mul, Nat.cast_pow, Nat.cast_ofNat]
  rcases multiple_or_small hq hcu s with ⟨j, rfl⟩ | ⟨hs, hsmall⟩
  · exact (hnearest j).imp_right fun htie hne => htie (by rintro rfl; exact hne rfl)
  · have hleast := (hnearest (2 ^ 23)).1
    have hlt : cu < 2 ^ 23 * 2 ^ s := lt_of_le_of_lt Int.le_natAbs (mod_cast hsmall)
    have hbelow : cu * den < 2 ^ 23 * 2 ^ s * den := mul_lt_mul_of_pos_right hlt (mod_cast hden)
    have hgrid : (2 ^ 23 * 2 ^ s * den : Int) ≤ num := by
      have hle := hscale.resolve_left (by omega)
      calc (2 ^ 23 * 2 ^ s * den : Int) = (2 ^ 23 * (den * 2 ^ s) : Nat) := by push_cast; ring
        _ ≤ num := mod_cast hle
    omega

theorem packBits_getLsbD_0 (neg : Bool) (bits : Nat) : (packBits neg bits).getLsbD 0 = decide (bits % 2 = 1) := by
  rw [packBits, BitVec.getLsbD_ofNat]
  cases neg <;> simp [Nat.testBit_zero]
  omega

/-- A distance from a signed number is the distance from its magnitude once the other side's sign is turned too. -/
theorem natAbs_sub_signedUnits (neg : Bool) (v : Int) (mag den : Nat) :
    (v * den - signedUnits neg mag).natAbs = ((if neg then -v else v) * den - mag).natAbs := by
  cases neg
  · rfl
  · rw [← Int.natAbs_neg]
    congr 1
    simp [signedUnits]
    ring

theorem ite_neg_eq_natCast_iff {neg : Bool} {v : Int} {mag : Nat} :
    (if neg then -v else v) = mag ↔ v = signedUnits neg mag := by
  cases neg
  · rfl
  · simp [signedUnits, neg_eq_iff_eq_neg]

/-- A sign beside the rounded bits of a magnitude is the signed number rounded to nearest (R12). -/
theorem roundedToNearest_packBits (neg : Bool) (num : Nat) {den : Nat} (hden : 0 < den) :
    RoundedToNearest (packBits neg (roundNearestEven num den)) (signedUnits neg num) den := by
  rw [RoundedToNearest, natAbs_signedUnits]
  refine ⟨fun hlt => ?_, fun hge => ?_⟩
  · refine ⟨_, finiteUnits_eq_some.2 ⟨_, _, unpack_rounded_of_lt hden hlt, rfl⟩, fun c cu hc => ?_⟩
    obtain ⟨q, k, hq, -, hcu⟩ := natAbs_of_finiteUnits hc
    have hturned : (if neg then -cu else cu).natAbs = q * 2 ^ k := by cases neg <;> simpa using hcu
    obtain ⟨hnear, htie⟩ := roundedSignificand_nearest num hden hq hturned
    simp only [natAbs_sub_signedUnits, ite_neg_eq_natCast_iff.2 rfl]
    refine ⟨hnear, fun hne heq => ?_⟩
    have heven := htie (mt ite_neg_eq_natCast_iff.1 hne) heq
    rw [packBits_getLsbD_0, (roundNearestEven_of_lt hden hlt).2]
    exact decide_eq_false (by omega)
  · have hpos : 0 < num := lt_of_lt_of_le (Nat.mul_pos overflow_threshold_pos hden) hge
    rw [unpack_rounded_of_ge hden hge]
    congr 1
    cases neg <;> simp [signedUnits]
    omega

/-! ### The primitives on finite values -/

theorem roundedToNearest_addFinite (na nb : Bool) (ma mb : Nat) :
    RoundedToNearest (addFinite na ma nb mb) (signedUnits na ma + signedUnits nb mb) 1 := by
  rw [addFinite]
  split
  · next hzero =>
    have hround := roundedToNearest_packBits (na && nb) 0 Nat.one_pos
    rwa [roundNearestEven_zero, signedUnits_zero, ← hzero] at hround
  · have hround := roundedToNearest_packBits (decide (signedUnits na ma + signedUnits nb mb < 0))
      (signedUnits na ma + signedUnits nb mb).natAbs Nat.one_pos
    rwa [signedUnits_natAbs] at hround

/-- Settles O27: both operations end in `addFinite`, which rounds the exact sum once. -/
theorem addAndSubRoundOnceToNearestEven : Obligations.AddAndSubRoundOnceToNearestEven := by
  intro a b x y ha hb
  obtain ⟨na, ma, hua, rfl⟩ := finiteUnits_eq_some.1 ha
  obtain ⟨nb, mb, hub, rfl⟩ := finiteUnits_eq_some.1 hb
  constructor
  · rw [add32, hua, hub]
    exact roundedToNearest_addFinite na nb ma mb
  · rw [sub32, hua, hub, sub_eq_add_neg, ← signedUnits_not]
    exact roundedToNearest_addFinite na (!nb) ma mb

/-- Settles O28: the product of the magnitudes, counted in units of `2^-298`, is rounded once. -/
theorem mulRoundsOnceToNearestEven : Obligations.MulRoundsOnceToNearestEven := by
  intro a b x y ha hb
  obtain ⟨na, ma, hua, rfl⟩ := finiteUnits_eq_some.1 ha
  obtain ⟨nb, mb, hub, rfl⟩ := finiteUnits_eq_some.1 hb
  rw [mul32, hua, hub, signedUnits_mul]
  exact roundedToNearest_packBits (na ^^ nb) (ma * mb) (Nat.two_pow_pos 149)

end Sys2Proof.Machine
end

section
/-! PROOFS. Comparisons, conversions and the clamp (R14 to R16): exact results, and the order that the clamp needs. -/

namespace Sys2Proof.Machine

/-! ### Exact results -/

/-- Every finite value lies below the overflow threshold. -/
theorem natAbs_lt_overflow_threshold {c : Word} {cu : Int} (h : finiteUnits c = some cu) :
    cu.natAbs < 2 ^ 277 - 2 ^ 252 := by
  obtain ⟨q, shift, hq, hshift, hmag⟩ := natAbs_of_finiteUnits h
  calc cu.natAbs = q * 2 ^ shift := hmag
    _ ≤ (2 ^ 24 - 1) * 2 ^ 253 := Nat.mul_le_mul (by omega) (Nat.pow_le_pow_right (by decide) hshift)
    _ = (2 ^ 25 - 2) * 2 ^ 252 := by rw [show 253 = 1 + 252 from rfl, pow_add, ← Nat.mul_assoc]; rfl
    _ < (2 ^ 25 - 1) * 2 ^ 252 := Nat.mul_lt_mul_of_pos_right (by decide) (Nat.two_pow_pos 252)
    _ = 2 ^ 277 - 2 ^ 252 := overflow_threshold_eq.symm

/-- A number that is a finite value is its own rounding. -/
theorem RoundedToNearest.exact {r c : Word} {cu : Int} (hround : RoundedToNearest r cu 1)
    (hc : finiteUnits c = some cu) : finiteUnits r = some cu := by
  obtain ⟨ru, hr, hnearest⟩ := hround.1 ((Nat.mul_one _).symm ▸ natAbs_lt_overflow_threshold hc)
  have herr := (hnearest c cu hc).1
  obtain rfl : ru = cu := by simpa [sub_eq_zero] using herr
  exact hr

/-- Every number of 24 significant bits, in range, is the value of a word. -/
theorem exists_finiteUnits {p k : Nat} (hp : p ≤ 2 ^ 24) (hk : k ≤ 252) :
    ∃ c, finiteUnits c = some ((p * 2 ^ k : Nat) : Int) := by
  induction k generalizing p with
  | zero =>
    have hword := unpack_packBits_carry (neg := false) hp (.inl rfl) (by rw [infinityBits]; omega)
    exact ⟨_, finiteUnits_eq_some.2 ⟨_, _, hword, rfl⟩⟩
  | succ k ih =>
    rcases Nat.lt_or_ge p (2 ^ 23) with hlt | hge
    · rw [show p * 2 ^ (k + 1) = 2 * p * 2 ^ k by ring]
      exact ih (by omega) (by omega)
    · have hword := unpack_packBits_carry (neg := false) hp (.inr hge) (shift := k + 1)
        (by rw [infinityBits]; omega)
      exact ⟨_, finiteUnits_eq_some.2 ⟨_, _, hword, rfl⟩⟩

/-- `i2f` is exact to `2^24` (R14). -/
theorem finiteUnits_i2f {n : Nat} (hn : n ≤ 2 ^ 24) : finiteUnits (i2f n) = some ((n : Int) * 2 ^ 149) := by
  obtain ⟨c, hc⟩ := exists_finiteUnits hn (show 149 ≤ 252 by decide)
  have hround := roundedToNearest_packBits false (n * 2 ^ 149) Nat.one_pos
  rw [Nat.cast_mul, Nat.cast_pow, Nat.cast_ofNat] at hc
  rw [signedUnits, if_neg (by decide), Nat.cast_mul, Nat.cast_pow, Nat.cast_ofNat, ← i2f] at hround
  exact hround.exact hc

/-- The part of a finite value below 1 has at most 24 significant bits. -/
theorem exists_finiteUnits_fraction {r : Word} {mag : Nat} (h : finiteUnits r = some (mag : Int)) :
    ∃ c, finiteUnits c = some ((mag % 2 ^ 149 : Nat) : Int) := by
  obtain ⟨q, shift, hq, hshift, hmag⟩ := natAbs_of_finiteUnits h
  rw [Int.natAbs_natCast] at hmag
  rcases Nat.lt_or_ge shift 149 with hlt | hge
  · have hmod : mag % 2 ^ 149 = q % 2 ^ (149 - shift) * 2 ^ shift := by
      rw [hmag, ← Nat.mul_mod_mul_right, ← pow_add, Nat.sub_add_cancel hlt.le]
    rw [hmod]
    exact exists_finiteUnits ((Nat.mod_le _ _).trans hq.le) (by omega)
  · have hmod : mag % 2 ^ 149 = 0 * 2 ^ 0 :=
      Nat.mod_eq_zero_of_dvd (hmag ▸ Dvd.dvd.mul_left (pow_dvd_pow 2 hge) q)
    rw [hmod]
    exact exists_finiteUnits (Nat.zero_le _) (Nat.zero_le _)

/-- `floor_int` divides the units by those of 1.0. -/
theorem floorInt_eq {r : Word} {mag : Nat} (h : finiteUnits r = some (mag : Int)) :
    floorInt r = some (mag / 2 ^ 149) := by
  obtain ⟨neg, m, hu, hm⟩ := finiteUnits_eq_some.1 h
  have hmag : mag = m := by simpa using congrArg Int.natAbs hm
  have hsign : ¬ (neg = true ∧ m ≠ 0) := by
    rintro ⟨rfl, hne⟩
    rw [hmag, signedUnits] at hm
    simp at hm
    omega
  rw [floorInt, hu, hmag]
  exact if_neg hsign

/-- Taking the integer part off a value below `2^24` loses nothing (R14, U1). -/
theorem finiteUnits_sub32_floor {r : Word} {mag : Nat} (h : finiteUnits r = some (mag : Int))
    (hlt : mag / 2 ^ 149 < 2 ^ 24) :
    finiteUnits (sub32 r (i2f (mag / 2 ^ 149))) = some ((mag : Int) - (mag / 2 ^ 149 : Nat) * 2 ^ 149) := by
  obtain ⟨c, hc⟩ := exists_finiteUnits_fraction h
  have hround := (addAndSubRoundOnceToNearestEven _ _ _ _ h (finiteUnits_i2f hlt.le)).2
  have hfraction : ((mag % 2 ^ 149 : Nat) : Int) = (mag : Int) - (mag / 2 ^ 149 : Nat) * 2 ^ 149 := by omega
  exact hround.exact (hfraction ▸ hc)

/-! ### Comparisons as comparisons of positions -/

theorem position_of_finiteUnits {a : Word} {x : Int} (h : finiteUnits a = some x) :
    position (unpack a) = some x := by
  obtain ⟨neg, mag, hu, rfl⟩ := finiteUnits_eq_some.1 h
  rw [hu, position]

theorem position_infinityOf (neg : Bool) :
    position (unpack (infinityOf neg)) = some (signedUnits neg (2 ^ 277)) := by
  rw [unpack_infinityOf, position]

/-- A finite value lies between the infinities. -/
theorem finite_between_infinities {a : Word} {x : Int} (h : finiteUnits a = some x) :
    signedUnits true (2 ^ 277) < x ∧ x < signedUnits false (2 ^ 277) := by
  have hlt : x.natAbs < 2 ^ 277 := (natAbs_lt_overflow_threshold h).trans_le (Nat.sub_le _ _)
  generalize 2 ^ 277 = top at *
  simp only [signedUnits, if_true, Bool.false_eq_true, if_false]
  omega

section
variable {a b : Word} {x y : Int}

theorem lt32_eq_decide (ha : position (unpack a) = some x) (hb : position (unpack b) = some y) :
    lt32 a b = decide (x < y) := by
  rw [lt32, ha, hb]

theorem le32_eq_decide (ha : position (unpack a) = some x) (hb : position (unpack b) = some y) :
    le32 a b = decide (x ≤ y) := by
  rw [le32, ha, hb]

theorem eq32_eq_decide (ha : position (unpack a) = some x) (hb : position (unpack b) = some y) :
    eq32 a b = decide (x = y) := by
  rw [eq32, ha, hb]

end

theorem exists_position_of_not_isNaN {a : Word} (h : isNaN a = false) : ∃ x, position (unpack a) = some x := by
  refine Option.ne_none_iff_exists'.1 fun hnone => ?_
  rw [isNaN_iff.2 (position_eq_none.1 hnone)] at h
  cases h

theorem not_isNaN_of_position {a : Word} {x : Int} (h : position (unpack a) = some x) : isNaN a = false := by
  refine Bool.eq_false_iff.2 fun hnan => ?_
  rw [isNaN_iff.1 hnan] at h
  cases h

/-- A NaN compares false on either side (R14). -/
theorem comparisons_of_isNaN {a b : Word} (h : isNaN a = true ∨ isNaN b = true) :
    lt32 a b = false ∧ le32 a b = false ∧ eq32 a b = false := by
  rw [isNaN_iff, isNaN_iff, ← position_eq_none, ← position_eq_none] at h
  rcases h with ha | hb
  · simp [lt32, le32, eq32, ha]
  · cases ha : position (unpack a) <;> simp [lt32, le32, eq32, ha, hb]

theorem not_isNaN_of_lt32 {a b : Word} (h : lt32 a b = true) : isNaN a = false ∧ isNaN b = false := by
  obtain ⟨x, y, ha, hb, -⟩ := lt32_iff.1 h
  exact ⟨not_isNaN_of_position ha, not_isNaN_of_position hb⟩

theorem not_isNaN_of_le32 {a b : Word} (h : le32 a b = true) : isNaN a = false ∧ isNaN b = false := by
  obtain ⟨x, y, ha, hb, -⟩ := le32_iff.1 h
  exact ⟨not_isNaN_of_position ha, not_isNaN_of_position hb⟩

/-- Without NaNs, `a <= b` is the denial of `b < a`. -/
theorem le32_eq_not_lt32 {a b : Word} (ha : isNaN a = false) (hb : isNaN b = false) : le32 a b = !lt32 b a := by
  obtain ⟨x, hx⟩ := exists_position_of_not_isNaN ha
  obtain ⟨y, hy⟩ := exists_position_of_not_isNaN hb
  rw [le32_eq_decide hx hy, lt32_eq_decide hy hx, ← decide_not, decide_eq_decide]
  exact not_lt.symm

theorem le32_refl {a : Word} (ha : isNaN a = false) : le32 a a = true := by
  rw [le32_eq_not_lt32 ha ha, lt32_irrefl, Bool.not_false]

theorem not_lt32_of_le32 {a b : Word} (h : le32 a b = true) : lt32 b a = false := by
  obtain ⟨ha, hb⟩ := not_isNaN_of_le32 h
  simpa [le32_eq_not_lt32 ha hb] using h

theorem not_le32_of_lt32 {a b : Word} (h : lt32 a b = true) : le32 b a = false := by
  obtain ⟨ha, hb⟩ := not_isNaN_of_lt32 h
  rw [le32_eq_not_lt32 hb ha, h, Bool.not_true]

theorem lt32_of_le32_of_lt32 {a b c : Word} (hab : le32 a b = true) (hbc : lt32 b c = true) : lt32 a c = true := by
  obtain ⟨x, y, hx, hy, hxy⟩ := le32_iff.1 hab
  obtain ⟨y', z, hy', hz, hyz⟩ := lt32_iff.1 hbc
  obtain rfl : y = y' := Option.some.inj (hy.symm.trans hy')
  exact lt32_iff.2 ⟨x, z, hx, hz, by omega⟩

/-- Settles O30: every comparison is one of positions, and `i2f` and `floor_int` lose nothing. -/
theorem comparisonsAndConversionsAreExact : Obligations.ComparisonsAndConversionsAreExact := by
  have hneg := position_infinityOf true
  have hpos := position_infinityOf false
  have hinfinities : lt32 0xFF800000#32 0x7F800000#32 = true := by
    obtain ⟨hlow, hhigh⟩ := finite_between_infinities (show finiteUnits zeroWord = some 0 by decide)
    exact lt32_iff.2 ⟨_, _, hneg, hpos, hlow.trans hhigh⟩
  refine ⟨by decide, fun a b => comparisons_of_isNaN, fun a b x y ha hb => ?_, fun a x ha => ?_,
    hinfinities, lt32_asymm hinfinities, eq32_iff.2 ⟨_, hpos, hpos⟩, eq32_iff.2 ⟨_, hneg, hneg⟩,
    fun n => finiteUnits_i2f, fun r x hr hx => ?_⟩
  · have ha := position_of_finiteUnits ha
    have hb := position_of_finiteUnits hb
    simp [lt32_eq_decide ha hb, le32_eq_decide ha hb, eq32_eq_decide ha hb]
  · obtain ⟨hlow, hhigh⟩ := finite_between_infinities ha
    have ha := position_of_finiteUnits ha
    have hbelow : lt32 0xFF800000#32 a = true := lt32_iff.2 ⟨_, _, hneg, ha, hlow⟩
    have habove : lt32 a 0x7F800000#32 = true := lt32_iff.2 ⟨_, _, ha, hpos, hhigh⟩
    exact ⟨hbelow, habove, not_le32_of_lt32 hbelow, not_le32_of_lt32 habove⟩
  · obtain ⟨mag, rfl⟩ := Int.eq_ofNat_of_zero_le hx
    exact ⟨_, floorInt_eq hr, by omega, by omega, finiteUnits_sub32_floor hr⟩

/-! ### The clamp -/

section
variable {x lo hi : Word}

theorem clamp_of_low (h : isNaN x = true ∨ lt32 x lo = true) : clamp x lo hi = lo := by
  rw [clamp, if_pos (Bool.or_eq_true_iff.2 h)]

theorem clamp_of_not_low (hnan : isNaN x = false) (hlow : lt32 x lo = false) :
    clamp x lo hi = if lt32 hi x then hi else x := by
  simp [clamp, hnan, hlow]

theorem clamp_of_high (hle : le32 lo hi = true) (h : lt32 hi x = true) : clamp x lo hi = hi := by
  rw [clamp_of_not_low (not_isNaN_of_lt32 h).2 (lt32_asymm (lt32_of_le32_of_lt32 hle h)), if_pos h]

theorem clamp_of_inRange (h : InRange lo hi x) : clamp x lo hi = x := by
  rw [clamp_of_not_low (not_isNaN_of_le32 h.1).2 (not_lt32_of_le32 h.1), if_neg (by simp [not_lt32_of_le32 h.2])]

theorem inRange_low (h : le32 lo hi = true) : InRange lo hi lo := ⟨le32_refl (not_isNaN_of_le32 h).1, h⟩

theorem inRange_high (h : le32 lo hi = true) : InRange lo hi hi := ⟨h, le32_refl (not_isNaN_of_le32 h).2⟩

theorem inRange_clamp (h : le32 lo hi = true) : InRange lo hi (clamp x lo hi) := by
  obtain ⟨hlo, hhi⟩ := not_isNaN_of_le32 h
  by_cases hlow : isNaN x = true ∨ lt32 x lo = true
  · rw [clamp_of_low hlow]
    exact inRange_low h
  · obtain ⟨hnan, hlow⟩ : isNaN x = false ∧ lt32 x lo = false := by simpa using hlow
    rw [clamp_of_not_low hnan hlow]
    split
    · exact inRange_high h
    · next hhigh => exact ⟨by simp [le32_eq_not_lt32 hlo hnan, hlow], by simp [le32_eq_not_lt32 hnan hhi, hhigh]⟩

end

/-- Settles O31: the three cases of the clamp are those of the total order on the words that are no NaN. -/
theorem clampFollowsItsRule : Obligations.ClampFollowsItsRule := fun _ _ _ hle =>
  ⟨clamp_of_low, clamp_of_high hle, clamp_of_inRange, inRange_clamp hle⟩

/-- Settles O32: the conditional subtraction is the remainder on the range of R16. -/
theorem modCapacityIsTheRemainder : Obligations.ModCapacityIsTheRemainder := by
  intro a capacity hcap ha
  refine ⟨modCapacity_eq_mod (by omega), fun hge => if_pos hge, fun hlt => if_neg (by omega), fun hlt => ?_⟩
  rw [modCapacity]
  split <;> split <;> omega

end Sys2Proof.Machine
end

section
/-! PROOFS. NaNs, infinities and signed zeros (R12, R13): what the primitives answer off the finite non-zero values. -/

namespace Sys2Proof.Machine

/-! ### NaN results -/

/-- A rounded word is finite or an infinity, with the sign it was given. -/
theorem unpack_rounded (neg : Bool) (num : Nat) {den : Nat} (hden : 0 < den) :
    (∃ mag, unpack (packBits neg (roundNearestEven num den)) = .finite neg mag) ∨
    unpack (packBits neg (roundNearestEven num den)) = .infinite neg := by
  rcases Nat.lt_or_ge num ((2 ^ 277 - 2 ^ 252) * den) with hlt | hge
  · exact .inl ⟨_, unpack_rounded_of_lt hden hlt⟩
  · exact .inr (unpack_rounded_of_ge hden hge)

theorem not_isNaN_rounded (neg : Bool) (num : Nat) {den : Nat} (hden : 0 < den) :
    isNaN (packBits neg (roundNearestEven num den)) = false := by
  rcases unpack_rounded neg num hden with ⟨mag, h⟩ | h <;> rw [isNaN, h] <;> rfl

theorem not_isNaN_infinityWord (neg : Bool) : isNaN (infinityWord neg) = false := by
  rw [isNaN, unpack_infinityWord]
  rfl

theorem not_isNaN_addFinite (na nb : Bool) (ma mb : Nat) : isNaN (addFinite na ma nb mb) = false := by
  rw [addFinite]
  split
  · rw [← roundNearestEven_zero 1]
    exact not_isNaN_rounded _ _ Nat.one_pos
  · exact not_isNaN_rounded _ _ Nat.one_pos

/-- A sum that is a NaN is the canonical one. -/
theorem addData_of_isNaN {d e : Datum} (h : isNaN (addData d e) = true) : addData d e = Config.canonicalNaN := by
  cases d with
  | nan => rfl
  | infinite na =>
    cases e with
    | nan => rfl
    | infinite nb =>
      rw [addData] at h ⊢
      split at h
      · simp [not_isNaN_infinityWord] at h
      · next hne => exact if_neg hne
    | finite nb mb => simp [addData, not_isNaN_infinityWord] at h
  | finite na ma =>
    cases e with
    | nan => rfl
    | infinite nb => simp [addData, not_isNaN_infinityWord] at h
    | finite nb mb => simp [addData, not_isNaN_addFinite] at h

/-- A product that is a NaN is the canonical one. -/
theorem mulData_of_isNaN {d e : Datum} (h : isNaN (mulData d e) = true) : mulData d e = Config.canonicalNaN := by
  cases d with
  | nan => rfl
  | infinite na =>
    cases e with
    | nan => rfl
    | infinite nb => simp [mulData, not_isNaN_infinityWord] at h
    | finite nb mb =>
      rw [mulData] at h ⊢
      split at h
      · next hzero => exact if_pos hzero
      · simp [not_isNaN_infinityWord] at h
  | finite na ma =>
    cases e with
    | nan => rfl
    | infinite nb =>
      rw [mulData] at h ⊢
      split at h
      · next hzero => exact if_pos hzero
      · simp [not_isNaN_infinityWord] at h
    | finite nb mb =>
      rw [mulData, not_isNaN_rounded _ _ (Nat.two_pow_pos 149)] at h
      cases h

theorem addData_nan_right (d : Datum) : addData d .nan = Config.canonicalNaN := by
  cases d <;> rfl

theorem mulData_nan_right (d : Datum) : mulData d .nan = Config.canonicalNaN := by
  cases d <;> rfl

/-- Settles O29: each case of the two operations that can be a NaN answers the canonical one. -/
theorem naNResultsAreCanonical : Obligations.NaNResultsAreCanonical := by
  refine fun a b => ⟨addData_of_isNaN, addData_of_isNaN, mulData_of_isNaN, fun h => ?_⟩
  rw [isNaN_iff, isNaN_iff] at h
  rcases h with ha | hb
  · rw [add32, sub32, mul32, ha]
    exact ⟨rfl, rfl, rfl⟩
  · rw [add32, sub32, mul32, hb]
    exact ⟨addData_nan_right _, addData_nan_right _, mulData_nan_right _⟩

/-! ### Infinities -/

/-- Settles O52: the infinity rows of the two operations, with the sign turned for a difference. -/
theorem infinitiesFollowIEEE754 : Obligations.InfinitiesFollowIEEE754 := by
  intro na nb
  have hinf (neg : Bool) : unpack (infinityOf neg) = .infinite neg := unpack_infinityOf neg
  refine ⟨?_, ?_, ?_, fun b y hb => ?_⟩
  · rw [add32, hinf, hinf, addData, infinityWord_eq, Config.canonicalNaN]
  · rw [sub32, hinf, hinf, negData, addData, infinityWord_eq]
    cases na <;> cases nb <;> rfl
  · rw [mul32, hinf, hinf, mulData, infinityWord_eq]
  · obtain ⟨neg, mag, hu, rfl⟩ := finiteUnits_eq_some.1 hb
    simp only [add32, sub32, mul32, hinf, hu, negData, addData, mulData, infinityWord_eq, true_and]
    refine ⟨fun hzero => ?_, fun hne => ?_⟩
    · simp only [if_pos (signedUnits_eq_zero.1 hzero), Config.canonicalNaN, true_and]
    · have hmag : mag ≠ 0 := mt signedUnits_eq_zero.2 hne
      simp only [if_neg hmag, signedUnits_neg_iff hmag, Bool.xor_comm neg, true_and]

/-! ### Signed zeros -/

/-- The zero of a sign is one word. -/
theorem unpack_eq_zero_iff {w : Word} {neg : Bool} : unpack w = .finite neg 0 ↔ w = packBits neg 0 := by
  constructor
  · intro h
    have hsign : signBit w = neg := getLsbD_31_of_finite h
    have hlt : w.toNat < 2 ^ 32 := w.isLt
    apply BitVec.eq_of_toNat_eq
    rw [packBits_toNat (by decide), ← hsign, signBit_eq]
    rw [unpack, exponentField_eq, fractionField_eq] at h
    split at h
    · split at h <;> cases h
    · split at h
      · next hexp =>
        have hfraction := (Datum.finite.inj h).2
        simp only [decide_eq_true_eq]
        split <;> omega
      · have hmag := (Datum.finite.inj h).2
        simp at hmag
  · rintro rfl
    cases neg <;> decide

theorem packBits_true_zero : packBits true 0 = 0x80000000#32 := by decide

theorem packBits_false_zero : packBits false 0 = 0x00000000#32 := by decide

/-- A finite word is `-0` when its sign is negative and its magnitude 0. -/
theorem finite_eq_negZero_iff {w : Word} {neg : Bool} {mag : Nat} (h : unpack w = .finite neg mag) :
    w = 0x80000000#32 ↔ neg = true ∧ mag = 0 := by
  rw [← packBits_true_zero, ← unpack_eq_zero_iff, h, Datum.finite.injEq]

/-- A finite word is `+0` when its sign is positive and its magnitude 0. -/
theorem finite_eq_posZero_iff {w : Word} {neg : Bool} {mag : Nat} (h : unpack w = .finite neg mag) :
    w = 0x00000000#32 ↔ neg = false ∧ mag = 0 := by
  rw [← packBits_false_zero, ← unpack_eq_zero_iff, h, Datum.finite.injEq]

/-- An exact zero sum is `-0` when both operands are `-0`, else `+0` (log 11). -/
theorem addFinite_of_zero {na nb : Bool} {ma mb : Nat} (h : signedUnits na ma + signedUnits nb mb = 0) :
    addFinite na ma nb mb =
      if (na = true ∧ ma = 0) ∧ (nb = true ∧ mb = 0) then 0x80000000#32 else 0x00000000#32 := by
  rw [addFinite, if_pos h]
  cases na <;> cases nb <;> simp [signedUnits] at h ⊢
  · rfl
  · rfl
  · rfl
  · rw [if_pos (by omega)]; rfl

/-- Settles O53: `addFinite` names the sign of an exact zero, and `mulData` packs the exclusive or of the signs. -/
theorem zeroResultsTakeTheirSign : Obligations.ZeroResultsTakeTheirSign := by
  intro a b x y ha hb
  obtain ⟨na, ma, hua, rfl⟩ := finiteUnits_eq_some.1 ha
  obtain ⟨nb, mb, hub, rfl⟩ := finiteUnits_eq_some.1 hb
  rw [add32, sub32, mul32, hua, hub, negData, addData, addData, mulData]
  refine ⟨fun hsum => ?_, fun hdiff => ?_, ?_⟩
  · simp only [finite_eq_negZero_iff hua, finite_eq_negZero_iff hub]
    exact addFinite_of_zero hsum
  · rw [sub_eq_add_neg, ← signedUnits_not] at hdiff
    rw [addFinite_of_zero hdiff]
    simp only [finite_eq_negZero_iff hua, finite_eq_posZero_iff hub, Bool.not_eq_true']
  · rw [packBits_getLsbD_31 (roundNearestEven_lt _ _), getLsbD_31_of_finite hua, getLsbD_31_of_finite hub]

end Sys2Proof.Machine
end

section
/-! PROOFS. Commands (R10, R15, R82): what an accepted command answers, and which operands it cannot tell apart. -/

namespace Sys2Proof.Machine

/-! ### One answer per command -/

/-- A command has answered: the port's pins and record are as before, one response is on offer, and an error wrote
nothing else (R10, R82). -/
def Answers (s t : State) : Prop :=
  t.inputs = s.inputs ∧ t.delivered = s.delivered ∧
  ∃ r, t.rsp = some r ∧
    (responseStatus r ≠ 0#2 → responseData r = 0#32 ∧ t = { s with rsp := some r })

theorem raise_answers (status : Status) (s : State) : Answers s (raise status s) :=
  ⟨rfl, rfl, responseWord status 0#32, rfl, fun _ => ⟨responseData_responseWord _ _, rfl⟩⟩

theorem respond_ok_answers (data : Word) {s t : State} (hinputs : t.inputs = s.inputs)
    (hdelivered : t.delivered = s.delivered) : Answers s (respond .ok data t) :=
  ⟨hinputs, hdelivered, responseWord .ok data, rfl, fun h => absurd (responseStatus_responseWord .ok data) h⟩

theorem setParameter_answers {write : State → State} {s : State} (hinputs : (write s).inputs = s.inputs)
    (hdelivered : (write s).delivered = s.delivered) : Answers s (setParameter write s) := by
  rcases setParameter_cases write s with ⟨-, h⟩ | ⟨-, h⟩ <;> rw [h]
  · exact raise_answers _ s
  · exact respond_ok_answers _ hinputs hdelivered

/-- Every command that goes on has answered. -/
theorem exec_answers {i : Instr} {s t : State} (h : exec i s = .next t) : Answers s t := by
  cases i with
  | create cap d g =>
    rcases execCreate_cases h with ⟨-, rfl⟩ | ⟨-, -, rfl⟩
    · exact raise_answers _ s
    · exact respond_ok_answers _ rfl rfl
  | process x =>
    rcases execProcess_cases h with ⟨-, rfl⟩ | ⟨-, -, y, -, rfl⟩
    · exact raise_answers _ s
    · exact respond_ok_answers _ rfl rfl
  | setDelay d =>
    cases h
    exact setParameter_answers rfl rfl
  | setGain g =>
    cases h
    exact setParameter_answers rfl rfl
  | setSmoothing f =>
    cases h
    exact setParameter_answers rfl rfl
  | destroy =>
    rcases execDestroy_cases h with ⟨-, rfl⟩ | ⟨-, rfl⟩
    · exact raise_answers _ s
    · exact respond_ok_answers _ rfl rfl

/-- Settles O14: an accepted word runs its command or raises ILLEGAL_COMMAND, and both answer. -/
theorem errorsWriteNoState : Obligations.ErrorsWriteNoState := by
  intro s t w haccept hstep
  have hanswers : Answers s.sampled t := by
    rcases step_cases hstep with ⟨hp, -⟩ | ⟨r, hp, -⟩ | ⟨w', i, -, -, hexec⟩ | ⟨w', e, -, -, rfl⟩ | ⟨hp, -⟩
    · cases haccept.symm.trans hp
    · cases haccept.symm.trans hp
    · exact exec_answers hexec
    · exact raise_answers _ _
    · cases haccept.symm.trans hp
  exact hanswers

/-! ### Operands that a command cannot tell apart -/

theorem setDelay_congr {s : State} {x x' : Word}
    (h : clampDelay s.capacity.toNat x = clampDelay s.capacity.toNat x') :
    exec (.setDelay x) s = exec (.setDelay x') s := by
  simp only [exec, execSetDelay, setParameter, h]

theorem setGain_congr {x x' : Word} (h : clampGain x = clampGain x') (s : State) :
    exec (.setGain x) s = exec (.setGain x') s := by
  simp only [exec, execSetGain, h]

theorem setSmoothing_congr {x x' : Word} (h : clampSmoothing x = clampSmoothing x') (s : State) :
    exec (.setSmoothing x) s = exec (.setSmoothing x') s := by
  simp only [exec, execSetSmoothing, h]

theorem create_congr {cap : Nat} {d d' g g' : Word} (hd : clampDelay cap d = clampDelay cap d')
    (hg : clampGain g = clampGain g') (s : State) :
    exec (.create cap d g) s = exec (.create cap d' g') s := by
  simp only [exec, execCreate, createOn, newEngine, hd, hg]

/-- A value above the range clamps as its high bound does. -/
theorem clamp_eq_clamp_high {x lo hi : Word} (hle : le32 lo hi = true) (h : lt32 hi x = true) :
    clamp x lo hi = clamp hi lo hi := by
  rw [clamp_of_high hle h, clamp_of_inRange (inRange_high hle)]

/-- A NaN or a value below the range clamps as its low bound does. -/
theorem clamp_eq_clamp_low {x lo hi : Word} (hle : le32 lo hi = true) (h : lt32 x lo = true ∨ isNaN x = true) :
    clamp x lo hi = clamp lo lo hi := by
  rw [clamp_of_low h.symm, clamp_of_inRange (inRange_low hle)]

/-- `i2f` of any number is at least 0, also where it rounds or overflows. -/
theorem zero_le_i2f (n : Nat) : le32 zeroWord (i2f n) = true := by
  have hzero : position (unpack zeroWord) = some 0 := by decide
  rcases unpack_rounded false (n * 2 ^ 149) Nat.one_pos with ⟨mag, h⟩ | h
  · exact le32_iff.2 ⟨0, mag, hzero, by rw [i2f, h]; rfl, Int.natCast_nonneg _⟩
  · exact le32_iff.2 ⟨0, (2 ^ 277 : Nat), hzero, by rw [i2f, h]; rfl, Int.natCast_nonneg _⟩

/-- Settles O22: a command reads its operand through the clamp, which sends it where its bound goes. -/
theorem outOfRangeParametersActAsTheBound : Obligations.OutOfRangeParametersActAsTheBound := by
  intro s x y cap
  have hgain : le32 minusOneWord oneWord = true := by decide
  have hsmoothing : le32 zeroWord Config.smoothingMax = true := by decide
  refine ⟨fun h => ?_, fun h => ?_, fun h => ?_, fun h => ?_, fun h => ?_, fun h => ?_⟩
  · have hclamp := clamp_eq_clamp_high hgain h
    exact ⟨setGain_congr hclamp s, create_congr rfl hclamp s⟩
  · have hclamp := clamp_eq_clamp_low hgain h
    exact ⟨setGain_congr hclamp s, create_congr rfl hclamp s⟩
  · exact setDelay_congr (clamp_eq_clamp_high (zero_le_i2f _) h)
  · exact create_congr (clamp_eq_clamp_high (zero_le_i2f cap) h) rfl s
  · exact ⟨setDelay_congr (clamp_eq_clamp_low (zero_le_i2f _) h),
      create_congr (clamp_eq_clamp_low (zero_le_i2f cap) h) rfl s,
      setSmoothing_congr (clamp_eq_clamp_low hsmoothing h) s⟩
  · exact setSmoothing_congr (clamp_eq_clamp_high hsmoothing h) s

end Sys2Proof.Machine
end

section
/-! PROOFS. The datapath of a live engine (R62, R63): smoothing stays in range, and the read position lies in the
buffer. -/

namespace Sys2Proof.Machine

/-! ### The order of the words that are no NaN -/

theorem le32_of_lt32 {a b : Word} (h : lt32 a b = true) : le32 a b = true := by
  obtain ⟨ha, hb⟩ := not_isNaN_of_lt32 h
  rw [le32_eq_not_lt32 ha hb, lt32_asymm h, Bool.not_false]

theorem lt32_of_lt32_of_le32 {a b c : Word} (hab : lt32 a b = true) (hbc : le32 b c = true) : lt32 a c = true := by
  obtain ⟨x, y, hx, hy, hxy⟩ := lt32_iff.1 hab
  obtain ⟨y', z, hy', hz, hyz⟩ := le32_iff.1 hbc
  obtain rfl : y = y' := Option.some.inj (hy.symm.trans hy')
  exact lt32_iff.2 ⟨x, z, hx, hz, by omega⟩

/-- What lies strictly between two values in range is in range. -/
theorem inRange_of_between {lo hi a b r : Word} (ha : InRange lo hi a) (hb : InRange lo hi b)
    (har : lt32 a r = true) (hrb : lt32 r b = true) : InRange lo hi r :=
  ⟨le32_of_lt32 (lt32_of_le32_of_lt32 ha.1 har), le32_of_lt32 (lt32_of_lt32_of_le32 hrb hb.2)⟩

/-! ### Smoothing -/

/-- SmoothStep answers its target, or a value strictly between the current value and the target (R62). -/
theorem smoothStep_eq_target_or_between (c t s : Word) :
    smoothStep c t s = t ∨
    (lt32 c (smoothStep c t s) = true ∧ lt32 (smoothStep c t s) t = true) ∨
    (lt32 t (smoothStep c t s) = true ∧ lt32 (smoothStep c t s) c = true) := by
  unfold smoothStep
  split
  · exact .inl rfl
  dsimp only
  split
  · split
    · next h => exact .inr (.inl (Bool.and_eq_true_iff.1 h))
    · exact .inl rfl
  split
  · split
    · next h => exact .inr (.inr (Bool.and_eq_true_iff.1 h))
    · exact .inl rfl
  · exact .inl rfl

/-- SmoothStep keeps every interval that holds the current value and the target. -/
theorem inRange_smoothStep {lo hi c t : Word} (hc : InRange lo hi c) (ht : InRange lo hi t) (s : Word) :
    InRange lo hi (smoothStep c t s) := by
  rcases smoothStep_eq_target_or_between c t s with h | ⟨hcr, hrt⟩ | ⟨htr, hrc⟩
  · rwa [h]
  · exact inRange_of_between hc ht hcr hrt
  · exact inRange_of_between ht hc htr hrc

/-! ### The read position -/

/-- What lies between two finite values is finite. -/
theorem finiteUnits_of_inRange {lo hi d : Word} {a b : Int} (hlo : finiteUnits lo = some a)
    (hhi : finiteUnits hi = some b) (h : InRange lo hi d) : ∃ x, finiteUnits d = some x ∧ a ≤ x ∧ x ≤ b := by
  obtain ⟨a', x, ha', hx, hax⟩ := le32_iff.1 h.1
  obtain ⟨x', b', hx', hb', hxb⟩ := le32_iff.1 h.2
  obtain rfl : a' = a := Option.some.inj (ha'.symm.trans (position_of_finiteUnits hlo))
  obtain rfl : x = x' := Option.some.inj (hx.symm.trans hx')
  obtain rfl : b' = b := Option.some.inj (hb'.symm.trans (position_of_finiteUnits hhi))
  cases hd : unpack d with
  | nan => rw [hd] at hx; cases hx
  | infinite neg =>
    obtain rfl : signedUnits neg (2 ^ 277) = x := by rw [hd] at hx; exact Option.some.inj hx
    cases neg with
    | false => exact absurd (finite_between_infinities hhi).2 (not_lt.2 hxb)
    | true => exact absurd (finite_between_infinities hlo).1 (not_lt.2 hax)
  | finite neg mag =>
    rw [hd] at hx
    exact ⟨x, finiteUnits_eq_some.2 ⟨neg, mag, hd, (Option.some.inj hx).symm⟩, hax, hxb⟩

theorem readPosAt_lt {i0 capacity : Nat} (h : i0 < capacity) (f : Word) :
    (readPosAt i0 capacity f).i0 < capacity ∧ (readPosAt i0 capacity f).i1 < capacity :=
  ⟨h, modCapacity_lt (by omega)⟩

/-- Both slots of a read position lie in the buffer. -/
theorem readPositionFrom_lt {w capacity : Nat} (hw : w < capacity) (n : Nat) (phi : Word) :
    (readPositionFrom w n capacity phi).i0 < capacity ∧ (readPositionFrom w n capacity phi).i1 < capacity := by
  have hi0 : modCapacity (w + capacity - n - 1) capacity < capacity := modCapacity_lt (by omega)
  unfold readPositionFrom
  split
  · exact readPosAt_lt (modCapacity_lt (by omega)) _
  · dsimp only
    split
    · exact readPosAt_lt (modCapacity_lt (by omega)) _
    · exact readPosAt_lt hi0 _

/-- ReadPosition answers on the whole domain of R63. -/
theorem exists_readPosition {w capacity : Nat} {d : Word} (hw : w < capacity) (hcap : capacity < 2 ^ 24)
    (hd : InRange zeroWord (i2f capacity) d) :
    ∃ p, readPosition w d capacity = some p ∧ p.i0 < capacity ∧ p.i1 < capacity := by
  obtain ⟨x, hx, hpos, -⟩ := finiteUnits_of_inRange (by decide : finiteUnits zeroWord = some 0)
    (finiteUnits_i2f hcap.le) hd
  obtain ⟨mag, rfl⟩ := Int.eq_ofNat_of_zero_le hpos
  refine ⟨readPositionFrom w (mag / 2 ^ 149) capacity (sub32 d (i2f (mag / 2 ^ 149))), ?_,
    readPositionFrom_lt hw _ _⟩
  rw [readPosition, if_pos ⟨hw, hd.1, hd.2⟩, floorInt_eq hx, Option.map_some]

/-! ### PROCESS, by its engine -/

/-- PROCESS without an engine answers NO_ENGINE (R61). -/
theorem execProcess_of_no_engine (x : Word) {s : State} (hv : s.valid = false) :
    execProcess x s = .next (raise .noEngine s) := by
  rw [execProcess, hv, if_neg Bool.false_ne_true]

/-- PROCESS on a live engine whose read position lies in the buffer runs all its six steps (R61). -/
theorem execProcess_of_delayedSample {x y : Word} {s : State} (hv : s.valid = true)
    (hw : s.writeCursor.toNat < s.capacity.toNat) (hy : delayedSample (smoothParameters s) = .ok y) :
    execProcess x s = .next (storedState x y (smoothParameters s)) := by
  rw [execProcess, if_pos hv, hy]
  exact (storeAndAnswer_eq _ _ _).trans (if_pos hw)

end Sys2Proof.Machine
end

section
/-! PROOFS. The invariant of the machine (R31, R54): it holds after reset, every step keeps it, and no state that has
it stops. -/

namespace Sys2Proof.Machine

variable {s t : State}

/-! ### One rule per operation -/

/-- The invariant says nothing of the pins to come. -/
theorem Inv.withInputs (h : Inv s) (pins : List PortIn) : Inv { s with inputs := pins } :=
  { h with engine := fun hv => { h.engine hv with } }

theorem Inv.sampled (h : Inv s) : Inv s.sampled := h.withInputs _

theorem Inv.deliver {r : Response} (h : Inv s) (hr : ResponseOk r) : Inv (deliver r s) where
  engine hv := { h.engine hv with }
  buffer_wf := h.buffer_wf
  buffer_depth := h.buffer_depth
  rsp_ok _ hnone := by cases hnone
  delivered_ok r' hmem := by
    rcases List.mem_append.1 hmem with hold | hnew
    · exact h.delivered_ok r' hold
    · rwa [List.mem_singleton.1 hnew]

/-- A state with neither engine, slots nor response has the invariant when its record is legal. -/
theorem Inv.hardwareReset (h : ∀ r ∈ s.delivered, ResponseOk r) : Inv (hardwareReset s) where
  engine hv := by cases hv
  buffer_wf := reset_memory_wf
  buffer_depth _ hmem := by cases hmem
  rsp_ok _ hnone := by cases hnone
  delivered_ok := h

theorem Inv.respond {status : Status} {data : Word} (h : Inv s) (hdata : status = .ok ∨ data = 0#32) :
    Inv (respond status data s) :=
  { h with
    engine := fun hv => { h.engine hv with }
    rsp_ok := fun _ hr => Option.some.inj hr ▸ responseWord_ok hdata }

theorem Inv.raise (h : Inv s) (status : Status) : Inv (raise status s) := h.respond (.inr rfl)

theorem Inv.setValid_false (h : Inv s) : Inv (s.setValid false) :=
  { h with engine := fun hv => by cases hv }

theorem Inv.setTargetDelay (h : Inv s) (d : Word) : Inv (s.setTargetDelay (clampDelay s.capacity.toNat d)) :=
  { h with engine := fun hv => { h.engine hv with targetDelay_range := inRange_clamp (zero_le_i2f _) } }

theorem Inv.setTargetGain (h : Inv s) (g : Word) : Inv (s.setTargetGain (clampGain g)) :=
  { h with engine := fun hv => { h.engine hv with targetGain_range := inRange_clamp (by decide) } }

theorem Inv.setSmoothingFactor (h : Inv s) (f : Word) : Inv (s.setSmoothingFactor (clampSmoothing f)) :=
  { h with engine := fun hv => { h.engine hv with smoothing_range := inRange_clamp (by decide) } }

/-- The engine a legal CREATE builds is in the ranges of R31. -/
theorem engineOk_newEngine {cap : Nat} (hpos : 1 ≤ cap) (hle : cap ≤ Config.maxCapacity) (d g : Word) (s : State) :
    EngineOk (newEngine cap d g s) := by
  have hcap : (newEngine cap d g s).capacity.toNat = cap := toNat_ofNat24 (Config.lt_two_pow_of_le_maxCapacity hle)
  have hdelay : InRange zeroWord (i2f cap) (clampDelay cap d) := inRange_clamp (zero_le_i2f cap)
  have hgain : InRange minusOneWord oneWord (clampGain g) := inRange_clamp (by decide)
  have hsmoothing : InRange zeroWord Config.smoothingMax Config.defaultSmoothing := by unfold InRange; decide
  constructor
  case smoothing_range => exact hsmoothing
  all_goals simpa only [hcap]

theorem Inv.newEngine {cap : Nat} (h : Inv s) (hpos : 1 ≤ cap) (hle : cap ≤ Config.maxCapacity) (d g : Word) :
    Inv (newEngine cap d g s) :=
  { h with
    engine := fun _ => engineOk_newEngine hpos hle d g s
    buffer_wf := Memory.wf_zeroBelow h.buffer_wf cap
    buffer_depth := fun e he => h.buffer_depth e (Memory.mem_zeroBelow he) }

theorem Inv.smoothParameters (h : Inv s) : Inv (smoothParameters s) :=
  { h with
    engine := fun hv =>
      have he := h.engine hv
      { he with
        currentDelay_range := inRange_smoothStep he.currentDelay_range he.targetDelay_range _
        currentGain_range := inRange_smoothStep he.currentGain_range he.targetGain_range _ } }

theorem Inv.writeSlot {i : Nat} (h : Inv s) (hi : i < Config.maxCapacity) (v : Word) :
    Inv (s.setBuffer (Memory.write s.buffer i v)) :=
  { h with
    engine := fun hv => { h.engine hv with }
    buffer_wf := Memory.wf_write h.buffer_wf i v
    buffer_depth := fun e he => by
      rcases Memory.mem_write he with rfl | hold
      · exact hi
      · exact h.buffer_depth e hold }

theorem Inv.advanceCursor (h : Inv s) : Inv (advanceCursor s) :=
  { h with
    engine := fun hv =>
      have he := h.engine hv
      { he with cursor_lt := advanceCursor_toNat he.cursor_lt ▸ Nat.mod_lt _ he.capacity_pos } }

theorem Inv.storedState (h : Inv s) (hv : s.valid = true) (x y : Word) : Inv (storedState x y s) :=
  have he := h.engine hv
  (h.writeSlot (he.cursor_lt.trans_le he.capacity_le) _).advanceCursor.respond (.inl rfl)

theorem Inv.setParameter {write : State → State} (h : Inv s) (hwrite : Inv (write s)) :
    Inv (setParameter write s) := by
  rcases setParameter_cases write s with ⟨-, heq⟩ | ⟨-, heq⟩ <;> rw [heq]
  · exact h.raise _
  · exact hwrite.respond (.inl rfl)

/-! ### Commands and steps -/

/-- Every command keeps the invariant. -/
theorem Inv.exec {i : Instr} (h : Inv s) (hexec : exec i s = .next t) : Inv t := by
  cases i with
  | create cap d g =>
    rcases execCreate_cases hexec with ⟨-, rfl⟩ | ⟨hpos, hle, rfl⟩
    · exact h.raise _
    · exact (h.newEngine hpos hle d g).respond (.inl rfl)
  | process x =>
    rcases execProcess_cases hexec with ⟨-, rfl⟩ | ⟨hv, -, y, -, rfl⟩
    · exact h.raise _
    · exact h.smoothParameters.storedState hv x y
  | setDelay d =>
    cases hexec
    exact h.setParameter (h.setTargetDelay d)
  | setGain g =>
    cases hexec
    exact h.setParameter (h.setTargetGain g)
  | setSmoothing f =>
    cases hexec
    exact h.setParameter (h.setSmoothingFactor f)
  | destroy =>
    rcases execDestroy_cases hexec with ⟨-, rfl⟩ | ⟨-, rfl⟩
    · exact h.raise _
    · exact h.setValid_false.respond (.inl rfl)

/-- The response an edge delivers is the one on offer. -/
theorem rsp_of_portEvent_deliver {r : Response} (h : s.portEvent = .deliver r) : s.rsp = some r := by
  rcases portEvent_cases s with ⟨-, hp⟩ | ⟨-, r', hr, ⟨-, hp⟩ | ⟨-, hp⟩⟩ | ⟨-, -, ⟨-, hp⟩ | ⟨-, hp⟩⟩ <;>
    cases hp.symm.trans h
  exact hr

/-- Settles O45: each of the five things an edge can do keeps the invariant. -/
theorem everyStepKeepsTheInvariant : Obligations.EveryStepKeepsTheInvariant := by
  intro s t h hstep
  rcases step_cases hstep with ⟨-, rfl⟩ | ⟨r, hp, rfl⟩ | ⟨w, i, -, -, hexec⟩ | ⟨w, e, -, -, rfl⟩ | ⟨-, rfl⟩
  · exact Inv.hardwareReset h.delivered_ok
  · exact h.sampled.deliver (h.rsp_ok r (rsp_of_portEvent_deliver hp))
  · exact h.sampled.exec hexec
  · exact h.sampled.raise _
  · exact h.sampled

/-- Settles O44: with no engine, no listed slot and no response, nothing is left to show. -/
theorem resetKeepsTheInvariant : Obligations.ResetKeepsTheInvariant :=
  Inv.hardwareReset (s := State.reset) fun _ hmem => by cases hmem

/-! ### No stop -/

/-- A live engine in the ranges of R31 reads its delayed sample. -/
theorem EngineOk.exists_delayedSample (h : EngineOk s) : ∃ y, delayedSample s = .ok y := by
  obtain ⟨p, hp, h0, h1⟩ := exists_readPosition h.cursor_lt s.capacity.isLt h.currentDelay_range
  exact ⟨_, delayedSample_of_position hp h0 h1⟩

/-- In a state with the invariant every command goes on. -/
theorem Inv.exists_exec (h : Inv s) (i : Instr) : ∃ t, Machine.exec i s = .next t := by
  cases i with
  | process x =>
    cases hv : s.valid with
    | false => exact ⟨_, execProcess_of_no_engine x hv⟩
    | true =>
      obtain ⟨y, hy⟩ := (h.smoothParameters.engine hv).exists_delayedSample
      exact ⟨_, execProcess_of_delayedSample hv (h.engine hv).cursor_lt hy⟩
  | create cap d g => exact ⟨_, rfl⟩
  | setDelay d => exact ⟨_, rfl⟩
  | setGain g => exact ⟨_, rfl⟩
  | setSmoothing f => exact ⟨_, rfl⟩
  | destroy => exact ⟨_, rfl⟩

/-- A state with the invariant never stops. -/
theorem Inv.exists_step (h : Inv s) : ∃ t, step s = .next t := by
  unfold step
  split
  · exact ⟨_, rfl⟩
  · exact ⟨_, rfl⟩
  · split
    · exact h.sampled.exists_exec _
    · exact ⟨_, rfl⟩
  · exact ⟨_, rfl⟩

/-- A run is its first step and the run from there. -/
theorem runSteps_succ (n : Nat) (s : State) : runSteps (n + 1) s = thenRun (step s) (runSteps n) := by
  have hcore : Sys2Proof.core.step s = step s := rfl
  simp only [runSteps, Host.Core.run, hcore]
  cases step s <;> rfl

/-- A run from a state with the invariant goes on, and ends with the invariant. -/
theorem Inv.exists_runSteps (h : Inv s) (n : Nat) : ∃ t, runSteps n s = .next t ∧ Inv t := by
  induction n generalizing s with
  | zero => exact ⟨s, rfl, h⟩
  | succ n ih =>
    obtain ⟨s', hstep⟩ := h.exists_step
    rw [runSteps_succ, hstep]
    exact ih (everyStepKeepsTheInvariant s s' h hstep)

/-- Settles O47: the invariant holds after reset whatever the pins, and runs on. -/
theorem everyRunFromResetGoesOn : Obligations.EveryRunFromResetGoesOn := fun n pins =>
  Inv.exists_runSteps (Inv.withInputs resetKeepsTheInvariant pins) n

end Sys2Proof.Machine
end

section
/-! PROOFS. What nothing observes (R24, R32, R60): two states with one port and one live engine step alike. -/

namespace Sys2Proof.Machine

variable {s t : State}

/-! ### The live engine -/

theorem memRead_congr (h : SameEngine s t) (i : Nat) : memRead i s = memRead i t := by
  unfold memRead
  rw [← h.capacity]
  split
  · next hi => rw [h.slots i hi]
  · rfl

/-- The delayed sample depends on the registers and the live slots only. -/
theorem delayedSample_congr (h : SameEngine s t) : delayedSample s = delayedSample t := by
  simp only [delayedSample, h.writeCursor, h.currentDelay, h.capacity, memRead_congr h]

theorem SameEngine.smoothParameters (h : SameEngine s t) : SameEngine (smoothParameters s) (smoothParameters t) :=
  { h with
    currentDelay := by
      simp only [smoothParameters_currentDelay, h.currentDelay, h.targetDelay, h.smoothingFactor]
    currentGain := by
      simp only [smoothParameters_currentGain, h.currentGain, h.targetGain, h.smoothingFactor] }

theorem SameEngine.writeSlot (h : SameEngine s t) (hs : Memory.wf s.buffer = true) (ht : Memory.wf t.buffer = true)
    (i : Nat) (v : Word) :
    SameEngine (s.setBuffer (Memory.write s.buffer i v)) (t.setBuffer (Memory.write t.buffer i v)) :=
  { h with
    slots := fun j hj => by
      simp only [State.setBuffer_buffer, Memory.read_write hs, Memory.read_write ht, h.slots j hj] }

theorem SameEngine.advanceCursor (h : SameEngine s t) : SameEngine (advanceCursor s) (advanceCursor t) :=
  { h with writeCursor := by simp only [advanceCursor_writeCursor, h.writeCursor, h.capacity] }

/-- CREATE writes every register and every live slot (R59). -/
theorem sameEngine_newEngine (cap : Nat) (d g : Word) (s t : State) :
    SameEngine (newEngine cap d g s) (newEngine cap d g t) where
  capacity := rfl
  writeCursor := rfl
  currentDelay := rfl
  targetDelay := rfl
  currentGain := rfl
  targetGain := rfl
  smoothingFactor := rfl
  slots i hi := by
    rw [newEngine_capacity, BitVec.toNat_ofNat] at hi
    have hlt : i < cap := hi.trans_le (Nat.mod_le _ _)
    rw [newEngine_buffer, newEngine_buffer, Memory.read_zeroBelow, Memory.read_zeroBelow, if_pos hlt, if_pos hlt]

/-! ### The port -/

theorem SameObservable.portEvent_eq (h : SameObservable s t) : s.portEvent = t.portEvent := by
  unfold State.portEvent State.pins
  rw [h.inputs, h.rsp]

theorem SameObservable.sampled (h : SameObservable s t) : SameObservable s.sampled t.sampled :=
  { h with
    inputs := congrArg List.tail h.inputs
    engine := fun hv => { h.engine hv with } }

theorem SameObservable.deliver (h : SameObservable s t) (r : Response) :
    SameObservable (deliver r s) (deliver r t) :=
  { h with
    rsp := rfl
    delivered := congrArg (· ++ [r]) h.delivered
    engine := fun hv => { h.engine hv with } }

theorem SameObservable.hardwareReset (h : SameObservable s t) : SameObservable (hardwareReset s) (hardwareReset t) where
  valid := rfl
  rsp := rfl
  inputs := h.inputs
  delivered := h.delivered
  engine hv := by cases hv

theorem SameObservable.respond (h : SameObservable s t) (status : Status) (data : Word) :
    SameObservable (respond status data s) (respond status data t) :=
  { h with
    rsp := rfl
    engine := fun hv => { h.engine hv with } }

theorem SameObservable.raise (h : SameObservable s t) (status : Status) :
    SameObservable (raise status s) (raise status t) := h.respond status 0#32

/-! ### The commands -/

theorem SameObservable.createOn (h : SameObservable s t) (maxCapacity cap : Nat) (d g : Word) :
    SameObservable (createOn maxCapacity cap d g s) (createOn maxCapacity cap d g t) := by
  unfold Machine.createOn
  split
  · exact h.raise _
  · have hnew : SameObservable (newEngine cap d g s) (newEngine cap d g t) :=
      { h with
        valid := rfl
        engine := fun _ => sameEngine_newEngine cap d g s t }
    exact hnew.respond _ _

theorem SameObservable.setParameter {write : State → State} (h : SameObservable s t)
    (hwrite : s.valid = true → SameObservable (write s) (write t)) :
    SameObservable (setParameter write s) (setParameter write t) := by
  unfold Machine.setParameter
  rw [← h.valid]
  split
  · next hv => exact (hwrite hv).respond _ _
  · exact h.raise _

theorem SameObservable.storedState (h : SameObservable s t) (hv : s.valid = true)
    (hs : Memory.wf s.buffer = true) (ht : Memory.wf t.buffer = true) (x y : Word) :
    SameObservable (storedState x y s) (storedState x y t) := by
  have he := h.engine hv
  have hstored (v : Word) : SameObservable
      (Machine.advanceCursor (s.setBuffer (Memory.write s.buffer s.writeCursor.toNat v)))
      (Machine.advanceCursor (t.setBuffer (Memory.write t.buffer s.writeCursor.toNat v))) :=
    { h with engine := fun _ => (he.writeSlot hs ht _ v).advanceCursor }
  unfold Machine.storedState
  rw [← he.currentGain, ← he.writeCursor]
  exact (hstored _).respond _ _

/-- A command that goes on in one of two such states does the same in the other. -/
theorem SameObservable.exec {i : Instr} {s' : State} (h : SameObservable s t) (hs : Memory.wf s.buffer = true)
    (ht : Memory.wf t.buffer = true) (hexec : exec i s = .next s') :
    ∃ t', exec i t = .next t' ∧ SameObservable s' t' := by
  cases i with
  | create cap d g =>
    cases hexec
    exact ⟨_, rfl, h.createOn _ cap d g⟩
  | process x =>
    rcases execProcess_cases hexec with ⟨hv, rfl⟩ | ⟨hv, hw, y, hy, rfl⟩
    · exact ⟨_, execProcess_of_no_engine x (h.valid ▸ hv), h.raise _⟩
    · have he := h.engine hv
      have hsmooth : SameObservable (smoothParameters s) (smoothParameters t) :=
        { h with engine := fun _ => he.smoothParameters }
      rw [he.writeCursor, he.capacity] at hw
      rw [delayedSample_congr he.smoothParameters] at hy
      exact ⟨_, execProcess_of_delayedSample (h.valid ▸ hv) hw hy, hsmooth.storedState hv hs ht x y⟩
  | setDelay d =>
    cases hexec
    refine ⟨_, rfl, h.setParameter fun hv => ?_⟩
    rw [(h.engine hv).capacity]
    exact { h with engine := fun _ => { h.engine hv with targetDelay := rfl } }
  | setGain g =>
    cases hexec
    exact ⟨_, rfl, h.setParameter fun hv =>
      { h with engine := fun _ => { h.engine hv with targetGain := rfl } }⟩
  | setSmoothing f =>
    cases hexec
    exact ⟨_, rfl, h.setParameter fun hv =>
      { h with engine := fun _ => { h.engine hv with smoothingFactor := rfl } }⟩
  | destroy =>
    cases hexec
    refine ⟨_, rfl, ?_⟩
    rw [← h.valid]
    split
    · have hnone : SameObservable (s.setValid false) (t.setValid false) :=
        { h with
          valid := rfl
          engine := fun hv => by cases hv }
      exact hnone.respond _ _
    · exact h.raise _

/-- Settles O48: both ports see one event, and each of the things it can do answers alike. -/
theorem unspecifiedStateIsNeverObserved : Obligations.UnspecifiedStateIsNeverObserved := by
  intro s t hs ht h
  unfold step
  rw [← h.portEvent_eq]
  cases s.portEvent with
  | reset => exact ⟨_, _, rfl, rfl, h.sampled.hardwareReset⟩
  | deliver r => exact ⟨_, _, rfl, rfl, h.sampled.deliver r⟩
  | accept w =>
    dsimp only
    cases decode w with
    | ok i =>
      obtain ⟨s', hexec⟩ := hs.sampled.exists_exec i
      obtain ⟨t', hexec', hsame⟩ := h.sampled.exec hs.buffer_wf ht.buffer_wf hexec
      exact ⟨s', t', hexec, hexec', hsame⟩
    | error e => exact ⟨_, _, rfl, rfl, h.sampled.raise _⟩
  | nothing => exact ⟨_, _, rfl, rfl, h.sampled⟩

end Sys2Proof.Machine
end

section
/-! PROOFS. Which command writes what (R17). -/

namespace Sys2Proof.Machine

/-- Everything a setter's command can do. -/
theorem setParameter_next_cases {write : State → State} {s t : State}
    (h : (.next (setParameter write s) : Host.Outcome State Fault Refusal) = .next t) :
    (s.valid = false ∧ t = raise .noEngine s) ∨ (s.valid = true ∧ t = respond .ok 0#32 (write s)) := by
  cases h
  exact setParameter_cases write s

/-- Settles O26: an error writes nothing, and a command that completes with OK writes what its row of R17 lists. -/
theorem onlyTheListedCommandsWriteEachRegister : Obligations.OnlyTheListedCommandsWriteEachRegister := by
  intro i s t hwf hexec
  cases i with
  | create cap d g =>
    rcases execCreate_cases hexec with ⟨-, rfl⟩ | ⟨-, -, rfl⟩
    · simp
    · simp +contextual [Memory.read_zeroBelow]
  | process x =>
    rcases execProcess_cases hexec with ⟨-, rfl⟩ | ⟨-, -, y, -, rfl⟩
    · simp
    · simp [storedState, Memory.read_write hwf]
  | setDelay d => rcases setParameter_next_cases hexec with ⟨-, rfl⟩ | ⟨-, rfl⟩ <;> simp
  | setGain g => rcases setParameter_next_cases hexec with ⟨-, rfl⟩ | ⟨-, rfl⟩ <;> simp
  | setSmoothing f => rcases setParameter_next_cases hexec with ⟨-, rfl⟩ | ⟨-, rfl⟩ <;> simp
  | destroy =>
    rcases execDestroy_cases hexec with ⟨-, rfl⟩ | ⟨-, rfl⟩ <;> simp

end Sys2Proof.Machine
end

section
/-! PROOFS. The transports (R37, R49): the bytes of a command are the base-256 digits of its word, lowest first. -/

namespace Sys2Proof

/-! ### Little-endian bytes -/

/-- The `n` lowest bytes of a number, lowest first: the form that both byte transports share (R37). -/
def littleEndianBytes (n x : Nat) : List Byte := (List.range n).map fun k => BitVec.ofNat 8 (x / 2 ^ (8 * k))

@[simp] theorem littleEndianBytes_length (n x : Nat) : (littleEndianBytes n x).length = n := by
  simp [littleEndianBytes]

theorem littleEndianBytes_succ (n x : Nat) :
    littleEndianBytes (n + 1) x = BitVec.ofNat 8 x :: littleEndianBytes n (x / 256) := by
  have hshift (k : Nat) : x / 2 ^ (8 * (k + 1)) = x / 256 / 2 ^ (8 * k) := by
    rw [Nat.div_div_eq_div_mul, Nat.mul_succ, Nat.pow_add, Nat.mul_comm]
  simp [littleEndianBytes, List.range_succ_eq_map, hshift]

theorem littleEndianBytes_getElem? {n k : Nat} (hk : k < n) (x : Nat) :
    ∃ b, (littleEndianBytes n x)[k]? = some b ∧ b.toNat = x / 2 ^ (8 * k) % 2 ^ 8 :=
  ⟨BitVec.ofNat 8 (x / 2 ^ (8 * k)), by simp [littleEndianBytes, hk], BitVec.toNat_ofNat _ _⟩

theorem littleEndian_littleEndianBytes (n x : Nat) : littleEndian (littleEndianBytes n x) = x % 2 ^ (8 * n) := by
  induction n generalizing x with
  | zero => simp [littleEndianBytes, littleEndian, Nat.mod_one]
  | succ n ih =>
    rw [littleEndianBytes_succ, littleEndian, ih, BitVec.toNat_ofNat, Nat.mul_succ, Nat.add_comm (8 * n),
      Nat.pow_add, Nat.mod_mul]

theorem littleEndianBytes_littleEndian (bytes : List Byte) :
    littleEndianBytes bytes.length (littleEndian bytes) = bytes := by
  induction bytes with
  | nil => rfl
  | cons b rest ih =>
    have hhead : BitVec.ofNat 8 (littleEndian (b :: rest)) = b :=
      BitVec.eq_of_toNat_eq (by rw [BitVec.toNat_ofNat, littleEndian]; omega)
    have htail : littleEndian (b :: rest) / 256 = littleEndian rest := by rw [littleEndian]; omega
    rw [List.length_cons, littleEndianBytes_succ, hhead, htail, ih]

/-! ### Commands and responses on a transport -/

theorem ofNat_toNat_mod (w : Command) : BitVec.ofNat 96 (w.toNat % 2 ^ 96) = w := by
  rw [BitVec.toNat_mod_cancel, BitVec.ofNat_toNat, BitVec.setWidth_eq]

theorem extractLsb'_byte {n : Nat} (w : BitVec n) (k : Nat) :
    w.extractLsb' (8 * k) 8 = BitVec.ofNat 8 (w.toNat / 2 ^ (8 * k)) :=
  BitVec.eq_of_toNat_eq (by
    rw [BitVec.extractLsb'_toNat, BitVec.toNat_ofNat, Nat.shiftRight_eq_div_pow])

theorem commandBytes_eq (w : Command) : commandBytes w = littleEndianBytes 12 w.toNat := by
  simp only [commandBytes, littleEndianBytes, extractLsb'_byte]

theorem responseBytes_eq (r : Response) : responseBytes r = littleEndianBytes 8 r.toNat := by
  simp only [responseBytes, littleEndianBytes, extractLsb'_byte]

/-- The bytes that make a command are the bytes in which it is sent, and no others. -/
theorem commandOfBytes_eq_some_iff {bytes : List Byte} {w : Command} :
    commandOfBytes bytes = some w ↔ commandBytes w = bytes := by
  rw [commandBytes_eq, commandOfBytes]
  constructor
  · intro h
    obtain ⟨hlen, hw⟩ := Option.ite_none_right_eq_some.1 h
    cases hw
    have hdigits := littleEndianBytes_littleEndian bytes
    have hmod := littleEndian_littleEndianBytes 12 (littleEndian bytes)
    rw [hlen] at hdigits
    rw [hdigits] at hmod
    rw [BitVec.toNat_ofNat, ← hmod, hdigits]
  · rintro rfl
    rw [littleEndianBytes_length, if_pos rfl, littleEndian_littleEndianBytes, ofNat_toNat_mod]

theorem commandOfWords_commandWords (w : Command) : commandOfWords (commandWords w) = some w := by
  have hhigh : w.extractLsb' 64 32 ++ w.extractLsb' 32 32 = w.extractLsb' 32 64 :=
    BitVec.extractLsb'_append_extractLsb'_eq_extractLsb' rfl
  have hall : w.extractLsb' 32 64 ++ w.extractLsb' 0 32 = w := BitVec.extractLsb'_append_extractLsb'
  exact congrArg some ((congrArg (· ++ w.extractLsb' 0 32) hhigh).trans hall)

/-- Settles O6: both byte transports send little-endian digits, and the three words of a command put it together
again. -/
theorem transportsCarryTheWholeCommand : Obligations.TransportsCarryTheWholeCommand := by
  refine ⟨fun w => ⟨?_, commandOfWords_commandWords w⟩, fun bytes w => commandOfBytes_eq_some_iff.1,
    fun w => ?_, fun w => ⟨_, _, _, rfl, ?_, ?_, ?_⟩, fun r => ?_⟩
  · rw [decodeBytes, commandOfBytes_eq_some_iff.2 rfl, Option.map_some]
  · rw [commandBytes_eq]
    exact ⟨littleEndianBytes_length _ _, fun _ hk => littleEndianBytes_getElem? hk _⟩
  · simp [BitVec.extractLsb'_toNat]
  · simp [BitVec.extractLsb'_toNat, Machine.wordA, Nat.shiftRight_eq_div_pow]
  · simp [BitVec.extractLsb'_toNat, Machine.wordB, Nat.shiftRight_eq_div_pow]
  · rw [responseBytes_eq]
    exact ⟨littleEndianBytes_length _ _, fun _ hk => littleEndianBytes_getElem? hk _⟩

end Sys2Proof
end

section
/-! PROOFS. The accepted command and the buffer (R34, R35, R48): a step runs the word on the port, and a slot holds
what was written. -/

namespace Sys2Proof.Machine

theorem portEvent_of_offer {s : State} (hrst : s.pins.rst = false) (hrsp : s.rsp = none)
    (hvalid : s.pins.cmdValid = true) : s.portEvent = .accept s.pins.cmdWord := by
  simp [State.portEvent, hrst, hrsp, hvalid]

theorem step_of_accept {s : State} {w : Command} {i : Instr} (haccept : s.portEvent = .accept w)
    (hdecode : decode w = .ok i) : step s = exec i s.sampled := by
  simp [step, haccept, hdecode]

theorem withFetchWord_portEvent (s : State) (w : Command) :
    (s.withFetchWord 96 w.toNat).portEvent = .accept w := by
  rw [portEvent_of_offer rfl rfl rfl]
  exact congrArg _ (ofNat_toNat_mod w)

/-- Settles O9: the port accepts the offered word, and an accepted word runs. -/
theorem stepRunsTheAcceptedCommand : Obligations.StepRunsTheAcceptedCommand :=
  ⟨fun _ _ hrst hrsp hvalid hdecode => step_of_accept (portEvent_of_offer hrst hrsp hvalid) hdecode,
    fun s w _ hdecode => step_of_accept (withFetchWord_portEvent s w) hdecode⟩

/-- Settles O33, by what a slot reads after a write. -/
theorem slotsHoldWhatWasWritten : Obligations.SlotsHoldWhatWasWritten := by
  refine fun s i v hwf => ⟨fun hi => ?_, fun hi => ⟨memWrite_eq_none.2 hi, memRead_eq_none.2 hi⟩⟩
  refine ⟨_, memWrite_eq_some.2 ⟨hi, rfl⟩, memRead_eq_some.2 ⟨hi, ?_⟩, fun j hj => ?_, rfl,
    Memory.wf_write hwf i v⟩
  · exact ((Memory.read_write hwf i i v).trans (if_pos rfl)).symm
  · exact (Memory.read_write hwf i j v).trans (if_neg hj)

end Sys2Proof.Machine
end

section
/-! PROOFS. The command word (R49 to R53): a word decodes exactly when it is the encoding of a well-formed command,
R53's list and the opcode table name the same words, and an accepted illegal word is answered. -/

namespace Sys2Proof

open Machine

/-! ### What the decoder accepts -/

/-- The fields of a command that uses only `A` (R51). -/
def OneOperandFields (w : Command) (op : BitVec 4) (a : Word) : Prop :=
  opField w = op ∧ capField w = 0#24 ∧ bField w = 0#32 ∧ aField w = a

/-- The fields of a word that stands for a command (R51). -/
def HasFields (w : Command) : Instr → Prop
  | .create cap d g => opField w = 0x1#4 ∧ (capField w).toNat = cap ∧ aField w = d ∧ bField w = g
  | .process x => OneOperandFields w 0x2#4 x
  | .setDelay d => OneOperandFields w 0x3#4 d
  | .setGain g => OneOperandFields w 0x4#4 g
  | .setSmoothing f => OneOperandFields w 0x5#4 f
  | .destroy => opField w = 0x6#4 ∧ capField w = 0#24 ∧ aField w = 0#32 ∧ bField w = 0#32

theorem decodeOneOperand_eq_ok_iff {w : Command} {f : Word → Instr} {i : Instr} :
    decodeOneOperand w f = .ok i ↔ capField w = 0#24 ∧ bField w = 0#32 ∧ f (aField w) = i := by
  unfold decodeOneOperand
  split_ifs <;> simp_all

theorem decodeNoOperand_eq_ok_iff {w : Command} {i j : Instr} :
    decodeNoOperand w i = .ok j ↔ capField w = 0#24 ∧ aField w = 0#32 ∧ bField w = 0#32 ∧ i = j := by
  unfold decodeNoOperand
  split_ifs <;> simp_all

/-- A word that decodes to a command has that command's fields. -/
theorem hasFields_of_decode {w : Command} {i : Instr} (h : decode w = .ok i) :
    rsvField w = 0#4 ∧ HasFields w i := by
  have hrsv : rsvField w = 0#4 := by
    by_contra hne
    simp [decode, hne] at h
  refine ⟨hrsv, ?_⟩
  rw [decode, if_neg (not_not.2 hrsv)] at h
  split_ifs at h with h1 h2 h3 h4 h5 h6
  · cases h
    exact ⟨h1, rfl, rfl, rfl⟩
  · obtain ⟨hcap, hb, rfl⟩ := decodeOneOperand_eq_ok_iff.1 h
    exact ⟨h2, hcap, hb, rfl⟩
  · obtain ⟨hcap, hb, rfl⟩ := decodeOneOperand_eq_ok_iff.1 h
    exact ⟨h3, hcap, hb, rfl⟩
  · obtain ⟨hcap, hb, rfl⟩ := decodeOneOperand_eq_ok_iff.1 h
    exact ⟨h4, hcap, hb, rfl⟩
  · obtain ⟨hcap, hb, rfl⟩ := decodeOneOperand_eq_ok_iff.1 h
    exact ⟨h5, hcap, hb, rfl⟩
  · obtain ⟨hcap, ha, hb, rfl⟩ := decodeNoOperand_eq_ok_iff.1 h
    exact ⟨h6, hcap, ha, hb⟩

theorem decode_of_hasFields {w : Command} {i : Instr} (hrsv : rsvField w = 0#4) (h : HasFields w i) :
    decode w = .ok i := by
  cases i with
  | create cap d g =>
    obtain ⟨hop, rfl, rfl, rfl⟩ := h
    simp [decode, hrsv, hop]
  | process | setDelay | setGain | setSmoothing =>
    obtain ⟨hop, hcap, hb, rfl⟩ := h
    simp [decode, decodeOneOperand, hrsv, hop, hcap, hb]
  | destroy =>
    obtain ⟨hop, hcap, ha, hb⟩ := h
    simp [decode, decodeNoOperand, hrsv, hop, hcap, ha, hb]

/-! ### The round trips -/

theorem rsvField_encode (i : Instr) : rsvField (encode i) = 0#4 := by
  cases i <;> exact rsvField_packCommand ..

theorem hasFields_encode {i : Instr} (h : i.wellFormed = true) : HasFields (encode i) i := by
  cases i with
  | create cap d g =>
    have hcap : cap < 2 ^ 24 := of_decide_eq_true h
    refine ⟨opField_packCommand .., ?_, aField_packCommand .., bField_packCommand ..⟩
    rw [encode, capField_packCommand, toNat_ofNat24 hcap]
  | process | setDelay | setGain | setSmoothing =>
    exact ⟨opField_packCommand .., capField_packCommand .., bField_packCommand .., aField_packCommand ..⟩
  | destroy =>
    exact ⟨opField_packCommand .., capField_packCommand .., aField_packCommand .., bField_packCommand ..⟩

/-- A word is packed from its fields, so one with a command's fields is that command's encoding. -/
theorem encode_of_hasFields {w : Command} {i : Instr} (hrsv : rsvField w = 0#4) (h : HasFields w i) :
    i.wellFormed = true ∧ encode i = w := by
  have hpack := packCommand_fields hrsv
  cases i with
  | create cap d g =>
    obtain ⟨hop, rfl, rfl, rfl⟩ := h
    refine ⟨decide_eq_true (capField w).isLt, ?_⟩
    rwa [encode, BitVec.ofNat_toNat, BitVec.setWidth_eq, ← hop]
  | process | setDelay | setGain | setSmoothing =>
    obtain ⟨hop, hcap, hb, rfl⟩ := h
    rw [hop, hcap, hb] at hpack
    exact ⟨rfl, hpack⟩
  | destroy =>
    obtain ⟨hop, hcap, ha, hb⟩ := h
    rw [hop, hcap, ha, hb] at hpack
    exact ⟨rfl, hpack⟩

/-- Settles O2: the encoding has the command's fields. -/
theorem decodeOfEncodeIsTheCommand : Obligations.DecodeOfEncodeIsTheCommand := fun i h =>
  decode_of_hasFields (rsvField_encode i) (hasFields_encode h)

/-- Settles O3: a word that decodes has the command's fields, and no bit lies outside them. -/
theorem encodeOfDecodeIsTheWord : Obligations.EncodeOfDecodeIsTheWord := fun _ _ h =>
  encode_of_hasFields (hasFields_of_decode h).1 (hasFields_of_decode h).2

/-- Settles O1, by decoding the eight words. -/
theorem specWordsDecodeToTheirCommands : Obligations.SpecWordsDecodeToTheirCommands := by
  unfold Obligations.SpecWordsDecodeToTheirCommands
  decide

/-! ### The illegal words -/

theorem opField_eq_iff {w : Command} {op : BitVec 4} : opField w = op ↔ wordOp w = op.toNat := by
  simp [← BitVec.toNat_inj, opField, wordOp, BitVec.extractLsb'_toNat]

theorem rsvField_eq_iff {w : Command} {rsv : BitVec 4} : rsvField w = rsv ↔ wordRsv w = rsv.toNat := by
  simp [← BitVec.toNat_inj, rsvField, wordRsv, BitVec.extractLsb'_toNat, Nat.shiftRight_eq_div_pow]

theorem capField_eq_iff {w : Command} {cap : BitVec 24} : capField w = cap ↔ wordCap w = cap.toNat := by
  simp [← BitVec.toNat_inj, capField, wordCap, BitVec.extractLsb'_toNat, Nat.shiftRight_eq_div_pow]

theorem aField_eq_iff {w : Command} {a : Word} : aField w = a ↔ wordA w = a.toNat := by
  simp [← BitVec.toNat_inj, aField, wordA, BitVec.extractLsb'_toNat, Nat.shiftRight_eq_div_pow]

theorem bField_eq_iff {w : Command} {b : Word} : bField w = b ↔ wordB w = b.toNat := by
  simp [← BitVec.toNat_inj, bField, wordB, BitVec.extractLsb'_toNat, Nat.shiftRight_eq_div_pow]

theorem not_illegalWord_of_decode {w : Command} {i : Instr} (h : decode w = .ok i) : ¬ IllegalWord w := by
  obtain ⟨hrsv, hfields⟩ := hasFields_of_decode h
  have hrsv0 := rsvField_eq_iff.1 hrsv
  unfold IllegalWord
  cases i with
  | create => simp [opField_eq_iff.1 hfields.1, hrsv0]
  | process | setDelay | setGain | setSmoothing =>
    obtain ⟨hop, hcap, hb, -⟩ := hfields
    simp [opField_eq_iff.1 hop, hrsv0, capField_eq_iff.1 hcap, bField_eq_iff.1 hb]
  | destroy =>
    obtain ⟨hop, hcap, ha, hb⟩ := hfields
    simp [opField_eq_iff.1 hop, hrsv0, capField_eq_iff.1 hcap, aField_eq_iff.1 ha, bField_eq_iff.1 hb]

/-- A word that R53 does not list has the fields of the command its opcode names. -/
theorem exists_decode_of_not_illegalWord {w : Command} (h : ¬ IllegalWord w) : ∃ i, decode w = .ok i := by
  unfold IllegalWord at h
  have hrsv : rsvField w = 0#4 := rsvField_eq_iff.2 (by simp; omega)
  have hone (op : BitVec 4) (hop : wordOp w = op.toNat) (hne : op.toNat ≠ 1) : OneOperandFields w op (aField w) :=
    ⟨opField_eq_iff.2 hop, capField_eq_iff.2 (by simp; omega), bField_eq_iff.2 (by simp; omega), rfl⟩
  have hop : wordOp w = 1 ∨ wordOp w = 2 ∨ wordOp w = 3 ∨ wordOp w = 4 ∨ wordOp w = 5 ∨ wordOp w = 6 := by omega
  rcases hop with hop | hop | hop | hop | hop | hop
  · exact ⟨.create _ _ _, decode_of_hasFields hrsv ⟨opField_eq_iff.2 hop, rfl, rfl, rfl⟩⟩
  · exact ⟨.process _, decode_of_hasFields hrsv (hone 0x2#4 hop (by decide))⟩
  · exact ⟨.setDelay _, decode_of_hasFields hrsv (hone 0x3#4 hop (by decide))⟩
  · exact ⟨.setGain _, decode_of_hasFields hrsv (hone 0x4#4 hop (by decide))⟩
  · exact ⟨.setSmoothing _, decode_of_hasFields hrsv (hone 0x5#4 hop (by decide))⟩
  · obtain ⟨hop6, hcap, hb, -⟩ := hone 0x6#4 hop (by decide)
    exact ⟨.destroy, decode_of_hasFields hrsv ⟨hop6, hcap, aField_eq_iff.2 (by simp; omega), hb⟩⟩

/-- The decoder rejects exactly the words that R53 lists. -/
theorem exists_decode_error_iff {w : Command} : (∃ e, decode w = .error e) ↔ IllegalWord w := by
  constructor
  · rintro ⟨e, he⟩
    by_contra hlegal
    obtain ⟨i, hi⟩ := exists_decode_of_not_illegalWord hlegal
    cases he.symm.trans hi
  · intro hillegal
    cases hdecode : decode w with
    | ok i => exact absurd hillegal (not_illegalWord_of_decode hdecode)
    | error e => exact ⟨e, rfl⟩

theorem step_of_illegal {s : State} {w : Command} {e : Illegal} (haccept : s.portEvent = .accept w)
    (hdecode : decode w = .error e) : step s = .next (raise .illegalCommand s.sampled) := by
  simp [step, haccept, hdecode]

/-- Settles O4: an accepted illegal word raises ILLEGAL_COMMAND, which writes the response alone. -/
theorem illegalWordsAnswerIllegalCommand : Obligations.IllegalWordsAnswerIllegalCommand := by
  refine fun w => ⟨exists_decode_error_iff, fun hillegal s haccept => ?_⟩
  obtain ⟨e, he⟩ := exists_decode_error_iff.2 hillegal
  exact step_of_illegal haccept he

/-! ### The opcode table -/

/-- A field that a row's mask selects whole is the pattern's in every word the row accepts. -/
theorem extractLsb'_of_accepts {r : OpcodeRow} {w : Command} (start len : Nat) (h : r.accepts w = true)
    (hmask : r.mask.extractLsb' start len = BitVec.allOnes len) :
    w.extractLsb' start len = r.pattern.extractLsb' start len := by
  rw [← beq_iff_eq.1 h, BitVec.extractLsb'_and, hmask, BitVec.and_allOnes]

/-- The mask of the commands that use only `A` selects every field but `A`. -/
theorem fields_of_accepts_oneOperand {r : OpcodeRow} {w : Command} (h : r.accepts w = true)
    (hmask : r.mask = 0xFFFFFFFF00000000FFFFFFFF#96) :
    rsvField w = rsvField r.pattern ∧ opField w = opField r.pattern ∧ capField w = capField r.pattern ∧
    bField w = bField r.pattern :=
  ⟨extractLsb'_of_accepts 4 4 h (hmask ▸ by decide), extractLsb'_of_accepts 0 4 h (hmask ▸ by decide),
    extractLsb'_of_accepts 8 24 h (hmask ▸ by decide), extractLsb'_of_accepts 64 32 h (hmask ▸ by decide)⟩

/-- The encoding of every command belongs to the row that has its mnemonic. -/
theorem tableRow (i : Instr) : Laws.TableRow.Statement i := by
  cases i with
  | create cap d g => exact Laws.TableRow.create cap d g
  | process x => exact Laws.TableRow.process x
  | setDelay d => exact Laws.TableRow.setDelay d
  | setGain g => exact Laws.TableRow.setGain g
  | setSmoothing f => exact Laws.TableRow.setSmoothing f
  | destroy => exact Laws.TableRow.destroy

/-- A row accepts no word but those that decode to its command. -/
theorem exists_decode_of_accepts {r : OpcodeRow} {w : Command} (hr : r ∈ opcodeTable) (h : r.accepts w = true) :
    ∃ i, decode w = .ok i ∧ i.mnemonic = r.mnemonic := by
  simp only [opcodeTable, List.mem_cons, List.not_mem_nil, or_false] at hr
  rcases hr with rfl | rfl | rfl | rfl | rfl | rfl
  · have hrsv : rsvField w = 0x0#4 := extractLsb'_of_accepts 4 4 h (by decide)
    have hop : opField w = 0x1#4 := extractLsb'_of_accepts 0 4 h (by decide)
    exact ⟨.create _ _ _, decode_of_hasFields hrsv ⟨hop, rfl, rfl, rfl⟩, rfl⟩
  · obtain ⟨hrsv, hop, hcap, hb⟩ := fields_of_accepts_oneOperand h rfl
    exact ⟨.process _, decode_of_hasFields hrsv ⟨hop, hcap, hb, rfl⟩, rfl⟩
  · obtain ⟨hrsv, hop, hcap, hb⟩ := fields_of_accepts_oneOperand h rfl
    exact ⟨.setDelay _, decode_of_hasFields hrsv ⟨hop, hcap, hb, rfl⟩, rfl⟩
  · obtain ⟨hrsv, hop, hcap, hb⟩ := fields_of_accepts_oneOperand h rfl
    exact ⟨.setGain _, decode_of_hasFields hrsv ⟨hop, hcap, hb, rfl⟩, rfl⟩
  · obtain ⟨hrsv, hop, hcap, hb⟩ := fields_of_accepts_oneOperand h rfl
    exact ⟨.setSmoothing _, decode_of_hasFields hrsv ⟨hop, hcap, hb, rfl⟩, rfl⟩
  · obtain rfl : w = 0x6#96 := BitVec.and_allOnes.symm.trans (beq_iff_eq.1 h)
    exact ⟨.destroy, by decide, rfl⟩

theorem opcodeTable_mnemonic_injective :
    ∀ r ∈ opcodeTable, ∀ r' ∈ opcodeTable, r.mnemonic = r'.mnemonic → r = r' := by decide

/-- A row accepts exactly the words that decode to its command. -/
theorem accepts_iff_decode {r : OpcodeRow} {w : Command} (hr : r ∈ opcodeTable) :
    r.accepts w = true ↔ ∃ i, decode w = .ok i ∧ i.mnemonic = r.mnemonic := by
  refine ⟨exists_decode_of_accepts hr, ?_⟩
  rintro ⟨i, hdecode, hname⟩
  obtain ⟨r', hr', hname', haccepts⟩ := tableRow i
  rw [(encodeOfDecodeIsTheWord w i hdecode).2] at haccepts
  rwa [opcodeTable_mnemonic_injective r hr r' hr' (hname.symm.trans hname'.symm)]

/-- Settles O5: a row is kept exactly when its mnemonic is the decoded command's. -/
theorem decodingAgreesWithTheOpcodeTable : Obligations.DecodingAgreesWithTheOpcodeTable := by
  intro w
  cases hdecode : decode w with
  | ok i =>
    have hkeep : ∀ r ∈ opcodeTable, r.accepts w = decide (i.mnemonic = r.mnemonic) := fun r hr => by
      rw [Bool.eq_iff_iff, accepts_iff_decode hr]
      simp [hdecode]
    rw [List.filter_congr hkeep]
    cases i <;> rfl
  | error e =>
    have hnone : ∀ r ∈ opcodeTable, ¬ r.accepts w = true := fun r hr => by
      rw [accepts_iff_decode hr]
      simp [hdecode]
    rw [List.filter_eq_nil_iff.2 hnone]
    rfl

end Sys2Proof
end

section
/-! PROOFS. The response word and the port (R48, R54): where a response holds its parts, and one command at a
time. -/

namespace Sys2Proof.Machine

/-- A response as a number: the data above 32 bits that hold the code (R54). -/
theorem responseWord_toNat (st : Status) (data : Word) :
    (responseWord st data).toNat = data.toNat * 2 ^ 32 + (Status.code st).toNat := by
  change BitVec.toNat (w := 32 + 30 + 2) (data ++ 0#30 ++ Status.code st) = _
  rw [BitVec.toNat_append, BitVec.toNat_append, ← Nat.shiftLeft_add_eq_or_of_lt (Status.code st).isLt,
    BitVec.toNat_zero, Nat.or_zero, ← Nat.shiftLeft_add, Nat.shiftLeft_eq]

/-- Settles O7: the four codes are 0 to 3. -/
theorem responseWordLayout : Obligations.ResponseWordLayout := by
  intro data
  simp only [responseWord_toNat]
  simp [Status.code]

theorem step_of_deliver {s : State} {r : Response} (h : s.portEvent = .deliver r) :
    step s = .next (deliver r s.sampled) := by
  simp [step, h]

theorem step_of_nothing {s : State} (h : s.portEvent = .nothing) : step s = .next s.sampled := by
  simp [step, h]

/-- Settles O10: a response on offer leaves delivery or nothing, and no command offered leaves nothing. -/
theorem oneCommandIsOutstanding : Obligations.OneCommandIsOutstanding := by
  refine ⟨fun s r hrst hrsp => ⟨?_, ?_, fun htake => ?_, fun hwait => ?_⟩,
    fun s hrst hrsp => ⟨?_, ?_, fun hidle => ?_⟩⟩
  · simp [State.cmdReady, hrsp]
  · simp [State.rspValid, hrst, hrsp]
  · exact step_of_deliver (by simp [State.portEvent, hrst, hrsp, htake])
  · exact step_of_nothing (by simp [State.portEvent, hrst, hrsp, hwait])
  · simp [State.cmdReady, hrst, hrsp]
  · simp [State.rspValid, hrsp]
  · rw [step_of_nothing (by simp [State.portEvent, hrst, hrsp, hidle]), ← hrsp]
    rfl

end Sys2Proof.Machine
end

section
/-! PROOFS. Literals (R56): a decimal literal is rounded as the arithmetic rounds. -/

namespace Sys2Proof.Machine

/-- A negative power of ten, 0 included, is a denominator. -/
theorem decimalBits_neg (digits e : Nat) :
    decimalBits digits (-(e : Int)) = roundNearestEven (digits * 2 ^ 149) (10 ^ e) := by
  cases e with
  | zero => simp [decimalBits]
  | succ e => rfl

theorem ite_mul_eq_signedUnits (neg : Bool) (mag : Nat) :
    (if neg then -1 else 1) * (mag : Int) = signedUnits neg mag := by
  cases neg <;> simp [signedUnits]

theorem packBits_rounded_getLsbD_31 (neg : Bool) (num den : Nat) :
    (packBits neg (roundNearestEven num den)).getLsbD 31 = neg :=
  packBits_getLsbD_31 (roundNearestEven_lt num den)

/-- Settles O55: a literal's magnitude is a quotient of whole numbers, rounded once, beside its sign. -/
theorem literalsStandForTheNearestWord : Obligations.LiteralsStandForTheNearestWord := by
  refine ⟨by decide, by decide, rfl, fun _ => rfl, fun neg digits e => ⟨?_, ?_, ?_, ?_⟩⟩
  · exact packBits_rounded_getLsbD_31 neg _ _
  · rw [Fval.toWord, decimalBits_neg]
    exact packBits_rounded_getLsbD_31 neg _ _
  · have hround := roundedToNearest_packBits neg (digits * 10 ^ e * 2 ^ 149) Nat.one_pos
    rw [← ite_mul_eq_signedUnits] at hround
    push_cast at hround
    exact hround
  · have hround := roundedToNearest_packBits neg (digits * 2 ^ 149) (Nat.pow_pos (n := e) (by decide : 0 < 10))
    rw [← ite_mul_eq_signedUnits, ← decimalBits_neg] at hround
    push_cast at hround
    exact hround

end Sys2Proof.Machine
end

section
/-! PROOFS. The assembler (R56, R57): a line of text gives the words of the line it parses to, every such word is the
encoding of a well-formed command, and the text of a command parses to it. -/

namespace Sys2Proof.Machine

/-! ### The words of a parsed line -/

theorem map_decode_processBlockWords (xs : List Word) :
    (processBlockWords xs).map decode = xs.map fun x => .ok (.process x) := by
  rw [processBlockWords, List.map_map]
  exact List.map_congr_left fun x _ => decodeOfEncodeIsTheCommand (.process x) rfl

/-- A line that is no raw word and whose capacity, if it has one, fits the field. -/
def AsmLine.EmitsCommands (l : AsmLine) : Prop :=
  (∀ w, l ≠ .raw w) ∧ ∀ cap d g, l = .create cap d g → cap < 2 ^ 24

/-- Every word of such a line is the encoding of a well-formed command. -/
theorem exists_encode_of_mem_assembleLine {l : AsmLine} (h : l.EmitsCommands) {w : Command}
    (hw : w ∈ assembleLine l) : ∃ i, i.wellFormed = true ∧ w = encode i := by
  obtain ⟨hraw, hcap⟩ := h
  cases l with
  | create cap d g =>
    exact ⟨.create cap d.toWord g.toWord, decide_eq_true (hcap cap d g rfl), List.mem_singleton.1 hw⟩
  | process | setDelay | setGain | setSmoothing | destroy => exact ⟨_, rfl, List.mem_singleton.1 hw⟩
  | processBlock xs =>
    obtain ⟨x, -, rfl⟩ := List.mem_map.1 hw
    exact ⟨.process x, rfl, rfl⟩
  | raw w => exact absurd rfl (hraw w)

theorem exists_decode_of_mem_assembleLine {l : AsmLine} (h : l.EmitsCommands) {w : Command}
    (hw : w ∈ assembleLine l) : ∃ i, decode w = .ok i ∧ encode i = w := by
  obtain ⟨i, hi, rfl⟩ := exists_encode_of_mem_assembleLine h hw
  exact ⟨i, decodeOfEncodeIsTheCommand i hi, rfl⟩

/-! ### The line a text parses to -/

theorem parseCapacity_lt {cs : List Char} {n : Nat} (h : parseCapacity cs = some n) : n < 2 ^ 24 :=
  of_decide_eq_true (Option.filter_eq_some_iff.1 h).2

/-- Only the name `.cmd` gives a raw word, and a capacity is read within its field. -/
theorem emitsCommands_of_parseCommand {name : String} {ops : List (List Char)} {l : AsmLine}
    (hname : name ≠ ".cmd") (h : parseCommand name ops = some l) : l.EmitsCommands := by
  unfold parseCommand at h
  split at h
  · split at h
    · split at h
      · next hcap _ =>
        cases h
        exact ⟨nofun, fun _ _ _ heq => by cases heq; exact parseCapacity_lt hcap⟩
      · cases h
    · cases h
  · split at h
    · obtain ⟨xs, -, rfl⟩ := Option.map_eq_some_iff.1 h
      exact ⟨nofun, nofun⟩
    · split at h
      · split_ifs at h <;> (cases h; exact ⟨nofun, nofun⟩)
      · split_ifs at h
        cases h
        exact ⟨nofun, nofun⟩
      · cases h

/-- Everything a line of text can assemble to. -/
theorem assembleText_cases {line : List Char} {ws : List Command} (h : assembleText line = some ws) :
    (lexLine line [] = [] ∧ ws = []) ∨
    ∃ name rest ops l, lexLine line [] = .word name :: rest ∧ operandList rest = some ops ∧
      parseCommand (String.ofList name) ops = some l ∧ ws = assembleLine l := by
  unfold assembleText at h
  split at h
  · next hlex => exact .inl ⟨hlex, by simpa using h.symm⟩
  · next name rest hlex =>
    split at h
    · next ops hops =>
      obtain ⟨l, hl, rfl⟩ := Option.map_eq_some_iff.1 h
      exact .inr ⟨name, rest, ops, l, hlex, hops, hl, rfl⟩
    · cases h
  · cases h

/-- Settles O8: a line of text but `.cmd` parses to a line whose words are encodings. -/
theorem assemblerEmitsLegalWords : Obligations.AssemblerEmitsLegalWords := by
  have hone {i : Instr} (hi : i.wellFormed = true) : [encode i].map decode = [.ok i] := by
    rw [List.map_singleton, decodeOfEncodeIsTheCommand i hi]
  refine ⟨fun l hraw hcap w => exists_decode_of_mem_assembleLine ⟨hraw, hcap⟩,
    fun cap d g hcap => hone (decide_eq_true hcap), fun v => ⟨hone rfl, hone rfl, hone rfl, hone rfl⟩, hone rfl,
    fun vs => ?_, fun _ => rfl, fun line ws hline hcmd w hw => ?_⟩
  · rw [assembleLine, map_decode_processBlockWords, List.map_map]
    rfl
  · rcases assembleText_cases hline with ⟨-, rfl⟩ | ⟨name, rest, ops, l, hlex, -, hl, rfl⟩
    · cases hw
    · refine exists_decode_of_mem_assembleLine (emitsCommands_of_parseCommand (fun hname => hcmd ?_) hl) hw
      rw [hlex, List.head?_cons, ← String.toList_ofList (l := name), hname]
      rfl

/-! ### Text to line -/

/-- What follows a `;` is not read. -/
theorem lexLine_comment (line rest acc : List Char) : lexLine (line ++ ';' :: rest) acc = lexLine line acc := by
  induction line generalizing acc with
  | nil => rfl
  | cons c cs ih => simp only [List.cons_append, lexLine, ih]

/-- Operands with a comma between each two. -/
def operandTokens : List (List Char) → List Token
  | [] => []
  | w :: ws => .word w :: ws.flatMap fun v => [.comma, .word v]

theorem operandsAfterComma_flatMap (ws : List (List Char)) :
    operandsAfterComma (ws.flatMap fun v => [.comma, .word v]) = some ws := by
  induction ws with
  | nil => rfl
  | cons w ws ih => simp [operandsAfterComma, ih]

theorem operandList_operandTokens (ops : List (List Char)) : operandList (operandTokens ops) = some ops := by
  cases ops with
  | nil => rfl
  | cons w ws => simp [operandTokens, operandList, operandsAfterComma_flatMap]

theorem hexLiteral_plain (count n : Nat) : ∀ c ∈ '0' :: 'x' :: hexText count n, PlainChar c := by
  intro c hc
  rcases List.mem_cons.1 hc with rfl | hc
  · simp [PlainChar]
  · rcases List.mem_cons.1 hc with rfl | hc
    · simp [PlainChar]
    · exact hexText_plain _ _ c hc

theorem bitsText_plain (w : Word) : ∀ c ∈ bitsText w, PlainChar c := by
  simp only [bitsText, List.mem_append, or_imp, forall_and]
  exact ⟨⟨by simp [PlainChar], hexText_plain _ _⟩, by simp [PlainChar]⟩

theorem bitsText_ne_nil (w : Word) : bitsText w ≠ [] := nofun

theorem lexLine_operandsText (ws : List Word) : lexLine (operandsText ws) [] = operandTokens (ws.map bitsText) := by
  induction ws using operandsText.induct with
  | case1 => rfl
  | case2 w => exact lexLine_plain (bitsText_plain w) (bitsText_ne_nil w)
  | case3 w v rest ih =>
    rw [operandsText, lexLine_plain_comma (bitsText_plain w) (bitsText_ne_nil w), ih]
    rfl

/-- A name and its operands go to the parser as they stand. -/
theorem assembleText_name_operands {name operands : List Char} {ops : List (List Char)} (hne : name ≠ [])
    (hplain : ∀ c ∈ name, PlainChar c) (hops : lexLine operands [] = operandTokens ops) :
    assembleText (name ++ ' ' :: operands) = (parseCommand (String.ofList name) ops).map assembleLine := by
  rw [assembleText, lexLine_plain_space hplain hne, hops]
  simp [operandList_operandTokens]

/-- A name and operands in the form `bits(...)`. -/
theorem assembleText_name_operandsText {name : List Char} (hne : name ≠ []) (hplain : ∀ c ∈ name, PlainChar c)
    (ws : List Word) :
    assembleText (name ++ ' ' :: operandsText ws) =
      (parseCommand (String.ofList name) (ws.map bitsText)).map assembleLine :=
  assembleText_name_operands hne hplain (lexLine_operandsText ws)

theorem parseCapacity_hexText {cap : Nat} (h : cap < 2 ^ 24) :
    parseCapacity ('0' :: 'x' :: hexText 6 cap) = some cap := by
  have hparse : parseDigits 16 (hexText 6 cap) = some cap := parseDigits_hexText h
  simpa [parseCapacity, hparse] using h

theorem parseRaw_hexText (w : Command) : parseRaw ('0' :: 'x' :: hexText 24 w.toNat) = some w := by
  have hparse : parseDigits 16 (hexText 24 w.toNat) = some w.toNat := parseDigits_hexText w.isLt
  simp [parseRaw, hparse]

theorem lexLine_createOperands (cap : Nat) (ws : List Word) :
    lexLine ('0' :: 'x' :: hexText 6 cap ++ ',' :: ' ' :: operandsText ws) [] =
      .word ('0' :: 'x' :: hexText 6 cap) :: .comma :: operandTokens (ws.map bitsText) := by
  rw [lexLine_plain_comma (hexLiteral_plain 6 cap) nofun, lexLine_operandsText]

theorem assembleText_commandText {i : Instr} (h : i.wellFormed = true) :
    assembleText (commandText i) = some [encode i] := by
  cases i with
  | create cap d g =>
    rw [commandText, List.append_assoc]
    refine (assembleText_name_operands (by decide) (by simp [PlainChar]) (lexLine_createOperands cap [d, g])
      (ops := ['0' :: 'x' :: hexText 6 cap, bitsText d, bitsText g])).trans ?_
    simp [parseCommand, parseCapacity_hexText (of_decide_eq_true h), parseFvals, parseFval_bitsText, assembleLine,
      Fval.toWord]
  | process x | setDelay x | setGain x | setSmoothing x =>
    refine (assembleText_name_operandsText (by decide) (by simp [PlainChar]) [x]).trans ?_
    simp [parseCommand, parseFvals, parseFval_bitsText, assembleLine, Fval.toWord]
  | destroy => decide

theorem assembleText_blockText (xs : List Word) :
    assembleText (blockText xs) = some (xs.map fun x => encode (.process x)) := by
  refine (assembleText_name_operandsText (by decide) (by simp [PlainChar]) xs).trans ?_
  have hwords : (xs.map Fval.bits).map Fval.toWord = xs := by
    rw [List.map_map]
    exact List.map_id xs
  simp [parseCommand, parseFvals_bitsText, assembleLine, hwords, processBlockWords]

theorem assembleText_rawText (w : Command) : assembleText (rawText w) = some [w] := by
  have hlex := lexLine_plain (hexLiteral_plain 24 w.toNat) nofun
  refine (assembleText_name_operands (by decide) (by simp [PlainChar]) hlex
    (ops := ['0' :: 'x' :: hexText 24 w.toNat])).trans ?_
  simp [parseCommand, parseRaw_hexText, assembleLine]

/-- Settles O56: each text lexes to a name and operands that parse to what they write. -/
theorem textAssemblesToItsCommand : Obligations.TextAssemblesToItsCommand :=
  ⟨fun _ => assembleText_commandText, assembleText_blockText, assembleText_rawText,
    fun line rest => by simp only [assembleText, lexLine_comment]⟩

end Sys2Proof.Machine
end

section
/-! PROOFS. The life of an engine (R59, R60, R77, R91): what CREATE and DESTROY answer and leave, and what an accepted
word with a given opcode runs. -/

namespace Sys2Proof.Machine

/-! ### The word form of a command -/

@[simp] theorem toNat_capField (w : Command) : (capField w).toNat = wordCap w := (capField_eq_iff.1 rfl).symm

@[simp] theorem ofNat_wordA (w : Command) : BitVec.ofNat 32 (wordA w) = aField w := by
  rw [aField_eq_iff.1 rfl, BitVec.ofNat_toNat, BitVec.setWidth_eq]

@[simp] theorem ofNat_wordB (w : Command) : BitVec.ofNat 32 (wordB w) = bField w := by
  rw [bField_eq_iff.1 rfl, BitVec.ofNat_toNat, BitVec.setWidth_eq]

theorem rsvField_of_not_illegalWord {w : Command} (h : ¬ IllegalWord w) : rsvField w = 0#4 :=
  have ⟨_, hdecode⟩ := exists_decode_of_not_illegalWord h
  (hasFields_of_decode hdecode).1

/-- An opcode runs the command whose fields its legal words have. -/
theorem wordRuns_of_hasFields {op : Nat} {i : Command → Instr}
    (h : ∀ w, ¬ IllegalWord w → wordOp w = op → HasFields w (i w)) : WordRuns op i := by
  refine fun s w haccept hop => ⟨fun hillegal => ?_, fun hlegal => ?_⟩
  · exact (illegalWordsAnswerIllegalCommand w).2 hillegal s haccept
  · exact step_of_accept haccept (decode_of_hasFields (rsvField_of_not_illegalWord hlegal) (h w hlegal hop))

/-! ### CREATE -/

theorem exec_create_of_bad_capacity {cap : Nat} (h : cap = 0 ∨ Config.maxCapacity < cap) (d g : Word) (s : State) :
    exec (.create cap d g) s = .next (raise .invalidCapacity s) := by
  rw [exec, execCreate, createOn, if_pos h]

theorem exec_create_of_good_capacity {cap : Nat} (hpos : 1 ≤ cap) (hle : cap ≤ Config.maxCapacity) (d g : Word)
    (s : State) : exec (.create cap d g) s = .next (respond .ok 0#32 (newEngine cap d g s)) := by
  rw [exec, execCreate, createOn, if_neg (by omega)]

theorem wordRuns_create :
    WordRuns 1 (fun w => .create (wordCap w) (BitVec.ofNat 32 (wordA w)) (BitVec.ofNat 32 (wordB w))) :=
  wordRuns_of_hasFields fun w _ hop =>
    ⟨opField_eq_iff.2 hop, toNat_capField w, (ofNat_wordA w).symm, (ofNat_wordB w).symm⟩

/-- Settles O16: a legal CREATE answers with the new engine, whose buffer is zero-filled below the capacity. -/
theorem createBuildsANewEngine : Obligations.CreateBuildsANewEngine := by
  refine ⟨wordRuns_create, fun s cap d g hbad => exec_create_of_bad_capacity hbad d g s,
    fun s cap d g hpos hle => ⟨_, exec_create_of_good_capacity hpos hle d g s, rfl, ?capacity,
      fun i hi => ?liveSlot, fun i hi => ?upperSlot, rfl, rfl, rfl, rfl, rfl, rfl, rfl, rfl, rfl⟩⟩
  case capacity => exact toNat_ofNat24 (Config.lt_two_pow_of_le_maxCapacity hle)
  case liveSlot => rw [respond_buffer, newEngine_buffer, Memory.read_zeroBelow, if_pos hi]
  case upperSlot => rw [respond_buffer, newEngine_buffer, Memory.read_zeroBelow, if_neg (Nat.not_lt.2 hi)]

/-- Settles O49: the two new engines are the same, and CREATE's answer replaces whatever response was on offer. -/
theorem createForgetsTheOldEngine : Obligations.CreateForgetsTheOldEngine := by
  intro s t cap d g hpos hle hinputs hdelivered
  refine ⟨_, _, exec_create_of_good_capacity hpos hle d g s, exec_create_of_good_capacity hpos hle d g t, ?_⟩
  exact
    { valid := rfl
      rsp := rfl
      inputs := hinputs
      delivered := hdelivered
      engine := fun _ => { sameEngine_newEngine cap d g s t with } }

/-! ### DESTROY -/

theorem exec_destroy_of_no_engine {s : State} (hv : s.valid = false) :
    exec .destroy s = .next (raise .noEngine s) := by
  simp [exec, execDestroy, hv]

theorem exec_destroy_of_engine {s : State} (hv : s.valid = true) :
    exec .destroy s = .next (respond .ok 0#32 (s.setValid false)) := by
  simp [exec, execDestroy, hv]

/-- Every field of a legal DESTROY but the opcode is 0 (R51, R53). -/
theorem wordRuns_destroy : WordRuns 6 (fun _ => .destroy) := by
  refine wordRuns_of_hasFields fun w hlegal hop => ?_
  unfold IllegalWord at hlegal
  have hcap : wordCap w = 0 := by omega
  have ha : wordA w = 0 := by omega
  have hb : wordB w = 0 := by omega
  exact ⟨opField_eq_iff.2 hop, capField_eq_iff.2 hcap, aField_eq_iff.2 ha, bField_eq_iff.2 hb⟩

/-- Settles O17: with an engine `valid` and the response are written, without one the response alone. -/
theorem destroyClearsValidOnly : Obligations.DestroyClearsValidOnly :=
  ⟨wordRuns_destroy, fun _ => exec_destroy_of_no_engine, fun _ => exec_destroy_of_engine⟩

end Sys2Proof.Machine
end

section
/-! PROOFS. PROCESS on a live engine (R42, R61): what one sample does, and what a sequence of samples leaves. -/

namespace Sys2Proof.Machine

variable {s t u : State}

/-! ### One sample -/

/-- PROCESS that goes on from a live engine has stored one sample. -/
theorem exec_process_of_engine {x : Word} (hv : s.valid = true) (h : exec (.process x) s = .next t) :
    s.writeCursor.toNat < s.capacity.toNat ∧ ∃ y, t = storedState x y (smoothParameters s) := by
  rcases execProcess_cases h with ⟨hno, -⟩ | ⟨-, hw, y, -, rfl⟩
  · cases hv.symm.trans hno
  · exact ⟨hw, y, rfl⟩

/-- PROCESS of a live engine in the ranges of R31 reads its position and stores one sample. -/
theorem EngineOk.exec_process (h : EngineOk s) (hv : s.valid = true) (x : Word) :
    ∃ p, readPosition s.writeCursor.toNat (smoothStep s.currentDelay s.targetDelay s.smoothingFactor)
        s.capacity.toNat = some p ∧ p.i0 < s.capacity.toNat ∧ p.i1 < s.capacity.toNat ∧
      exec (.process x) s = .next (storedState x
        (interpolate (Memory.read s.buffer p.i0) (Memory.read s.buffer p.i1) p.f) (smoothParameters s)) := by
  obtain ⟨p, hp, h0, h1⟩ := exists_readPosition h.cursor_lt s.capacity.isLt
    (inRange_smoothStep h.currentDelay_range h.targetDelay_range s.smoothingFactor)
  exact ⟨p, hp, h0, h1,
    execProcess_of_delayedSample hv h.cursor_lt (delayedSample_of_position (s := smoothParameters s) hp h0 h1)⟩

/-- What a slot reads once a sample is stored. -/
theorem read_storedState (hwf : Memory.wf s.buffer = true) (x y : Word) (j : Nat) :
    Memory.read (storedState x y s).buffer j =
      if j = s.writeCursor.toNat then allpassStored x y s.currentGain else Memory.read s.buffer j :=
  Memory.read_write hwf s.writeCursor.toNat j _

theorem storedState_cursor (hw : s.writeCursor.toNat < s.capacity.toNat) (x y : Word) :
    (storedState x y s).writeCursor.toNat = (s.writeCursor.toNat + 1) % s.capacity.toNat :=
  advanceCursor_toNat (s := s.setBuffer _) hw

theorem storedState_rsp (x y : Word) (s : State) :
    (storedState x y s).rsp =
      some (responseWord .ok (allpassOutput y s.currentGain (allpassStored x y s.currentGain))) := rfl

theorem wordRuns_process : WordRuns 2 (fun w => .process (BitVec.ofNat 32 (wordA w))) := by
  refine wordRuns_of_hasFields fun w hlegal hop => ?_
  unfold IllegalWord at hlegal
  have hcap : wordCap w = 0 := by omega
  have hb : wordB w = 0 := by omega
  exact ⟨opField_eq_iff.2 hop, capField_eq_iff.2 hcap, bField_eq_iff.2 hb, (ofNat_wordA w).symm⟩

/-- Settles O25: the state PROCESS leaves is `storedState` of the smoothed state, read field by field. -/
theorem processFiltersOneSample : Obligations.ProcessFiltersOneSample := by
  refine ⟨wordRuns_process, fun s x hv => execProcess_of_no_engine x hv, fun s x h hv => ?_⟩
  have he := h.engine hv
  obtain ⟨p, hp, h0, h1, hexec⟩ := he.exec_process hv x
  have hread := read_storedState (s := smoothParameters s) h.buffer_wf x
    (interpolate (Memory.read s.buffer p.i0) (Memory.read s.buffer p.i1) p.f)
  exact ⟨p, _, _, _, _, _, rfl, rfl, hp, h0, h1, rfl, rfl, hexec, rfl, rfl, (hread _).trans (if_pos rfl),
    fun j hj => (hread j).trans (if_neg hj), storedState_cursor (s := smoothParameters s) he.cursor_lt x _,
    rfl, rfl, rfl, rfl, rfl, rfl, rfl, rfl⟩

/-! ### A sequence of samples -/

/-- A live engine whose cursor lies in a buffer of canonical form: what it takes to store a sample. -/
structure CanStore (s : State) : Prop where
  valid : s.valid = true
  cursor_lt : s.writeCursor.toNat < s.capacity.toNat
  buffer_wf : Memory.wf s.buffer = true

theorem Inv.canStore (h : Inv s) (hv : s.valid = true) : CanStore s := ⟨hv, (h.engine hv).cursor_lt, h.buffer_wf⟩

/-- A current value after `n` smoothing steps toward `t` with the factor `f`. -/
def smoothAfter (t f : Word) (n : Nat) : Word → Word := (fun c => smoothStep c t f)^[n]

theorem smoothAfter_add (t f : Word) (m n : Nat) (c : Word) :
    smoothAfter t f (m + n) c = smoothAfter t f n (smoothAfter t f m c) := by
  rw [Nat.add_comm]
  exact Function.iterate_add_apply _ n m c

/-- What `n` samples make of a live engine `s`: the cursor has moved on by `n`, the current values have taken `n`
smoothing steps, and only the slots the cursor has passed may differ. -/
structure Advanced (n : Nat) (s t : State) : Prop where
  canStore : CanStore t
  capacity : t.capacity = s.capacity
  cursor : t.writeCursor.toNat = (s.writeCursor.toNat + n) % s.capacity.toNat
  targetDelay : t.targetDelay = s.targetDelay
  targetGain : t.targetGain = s.targetGain
  smoothingFactor : t.smoothingFactor = s.smoothingFactor
  currentDelay : t.currentDelay = smoothAfter s.targetDelay s.smoothingFactor n s.currentDelay
  currentGain : t.currentGain = smoothAfter s.targetGain s.smoothingFactor n s.currentGain
  slots : ∀ j, (∀ i, i < n → (s.writeCursor.toNat + i) % s.capacity.toNat ≠ j) →
    Memory.read t.buffer j = Memory.read s.buffer j

theorem Advanced.refl (h : CanStore s) : Advanced 0 s s :=
  ⟨h, rfl, (Nat.mod_eq_of_lt h.cursor_lt).symm, rfl, rfl, rfl, rfl, rfl, fun _ _ => rfl⟩

theorem Advanced.trans {m n : Nat} (hst : Advanced m s t) (htu : Advanced n t u) : Advanced (m + n) s u := by
  have hcursor (i : Nat) : (t.writeCursor.toNat + i) % t.capacity.toNat =
      (s.writeCursor.toNat + (m + i)) % s.capacity.toNat := by
    rw [hst.capacity, hst.cursor, Nat.mod_add_mod, Nat.add_assoc]
  refine ⟨htu.canStore, htu.capacity.trans hst.capacity, htu.cursor.trans (hcursor n),
    htu.targetDelay.trans hst.targetDelay, htu.targetGain.trans hst.targetGain,
    htu.smoothingFactor.trans hst.smoothingFactor, ?delay, ?gain, fun j hj => ?slots⟩
  case delay =>
    rw [htu.currentDelay, hst.targetDelay, hst.smoothingFactor, hst.currentDelay, smoothAfter_add]
  case gain =>
    rw [htu.currentGain, hst.targetGain, hst.smoothingFactor, hst.currentGain, smoothAfter_add]
  case slots =>
    have hlater := htu.slots j fun i hi => hcursor i ▸ hj (m + i) (by omega)
    exact hlater.trans (hst.slots j fun i hi => hj i (by omega))

/-- One sample moves a live engine on by one. -/
theorem advanced_of_exec {x : Word} (hv : s.valid = true) (hwf : Memory.wf s.buffer = true)
    (h : exec (.process x) s = .next t) : Advanced 1 s t := by
  obtain ⟨hw, y, rfl⟩ := exec_process_of_engine hv h
  have hcursor := storedState_cursor (s := smoothParameters s) hw x y
  refine ⟨⟨hv, hcursor ▸ Nat.mod_lt _ (Nat.zero_lt_of_lt hw), Memory.wf_write hwf _ _⟩, rfl, hcursor, rfl, rfl,
    rfl, rfl, rfl, fun j hj => ?_⟩
  have hne : j ≠ s.writeCursor.toNat := by
    rintro rfl
    exact hj 0 Nat.one_pos (Nat.mod_eq_of_lt hw)
  exact (read_storedState (s := smoothParameters s) hwf x y j).trans (if_neg hne)

/-- A sequence goes on as far as its first command and the rest from there do. -/
theorem execAll_cons_eq_next {i : Instr} {is : List Instr} :
    execAll (i :: is) s = .next u ↔ ∃ t, exec i s = .next t ∧ execAll is t = .next u := by
  rw [execAll]
  cases exec i s <;> simp [thenRun]

/-- A sequence of samples moves a live engine on by as many. -/
theorem advanced_of_execAll {xs : List Word} (h : CanStore s) (hrun : execAll (xs.map .process) s = .next t) :
    Advanced xs.length s t := by
  induction xs generalizing s with
  | nil =>
    cases hrun
    exact .refl h
  | cons x xs ih =>
    obtain ⟨u, hexec, hrest⟩ := execAll_cons_eq_next.1 hrun
    have hfirst := advanced_of_exec h.valid h.buffer_wf hexec
    rw [List.length_cons, Nat.add_comm]
    exact hfirst.trans (ih hfirst.canStore hrest)

/-- In a state with the invariant every sequence of commands goes on. -/
theorem Inv.exists_execAll (h : Inv s) (is : List Instr) : ∃ t, execAll is s = .next t := by
  induction is generalizing s with
  | nil => exact ⟨s, rfl⟩
  | cons i is ih =>
    obtain ⟨t, hexec⟩ := h.exists_exec i
    obtain ⟨u, hrest⟩ := ih (h.exec hexec)
    exact ⟨u, execAll_cons_eq_next.2 ⟨t, hexec, hrest⟩⟩

end Sys2Proof.Machine
end

section
/-! PROOFS. Smoothing (R62, R70, R98): its value, the ranges it keeps, and that it arrives. -/

namespace Sys2Proof.Machine

/-! ### The value of a step -/

theorem lt32_trans {a b c : Word} (hab : lt32 a b = true) (hbc : lt32 b c = true) : lt32 a c = true :=
  lt32_of_lt32_of_le32 hab (le32_of_lt32 hbc)

/-- At its target SmoothStep stays there. -/
theorem smoothStep_of_eq {c t : Word} (h : eq32 c t = true) (s : Word) : smoothStep c t s = t := by
  obtain ⟨x, hc, ht⟩ := eq32_iff.1 h
  have hct : lt32 c t = false := by rw [lt32_eq_decide hc ht, decide_eq_false (lt_irrefl x)]
  have htc : lt32 t c = false := by rw [lt32_eq_decide ht hc, decide_eq_false (lt_irrefl x)]
  simp [smoothStep, hct, htc]

theorem smoothStep_self (t s : Word) : smoothStep t t s = t := by
  simp [smoothStep, lt32_irrefl]

/-- With a zero factor SmoothStep answers its target. -/
theorem smoothStep_of_zero_factor {s : Word} (h : eq32 s zeroWord = true) (c t : Word) : smoothStep c t s = t :=
  if_pos h

/-- The source's formula, each operation rounded (R62). -/
def smoothFormula (c t s : Word) : Word := add32 c (mul32 (sub32 t c) (sub32 oneWord s))

/-- Below its target SmoothStep answers the formula where that lies strictly between. -/
theorem smoothStep_of_below {c t s : Word} (hs : eq32 s zeroWord = false) (hct : lt32 c t = true) :
    smoothStep c t s =
      if lt32 c (smoothFormula c t s) && lt32 (smoothFormula c t s) t then smoothFormula c t s else t := by
  simp [smoothStep, smoothFormula, hs, hct]

/-- Above its target SmoothStep answers the formula where that lies strictly between. -/
theorem smoothStep_of_above {c t s : Word} (hs : eq32 s zeroWord = false) (htc : lt32 t c = true) :
    smoothStep c t s =
      if lt32 t (smoothFormula c t s) && lt32 (smoothFormula c t s) c then smoothFormula c t s else t := by
  simp [smoothStep, smoothFormula, hs, htc, lt32_asymm htc]

/-- Below its target SmoothStep moves up, and not past it. -/
theorem smoothStep_rises {c t : Word} (hct : lt32 c t = true) (s : Word) :
    lt32 c (smoothStep c t s) = true ∧ le32 (smoothStep c t s) t = true := by
  rcases smoothStep_eq_target_or_between c t s with h | ⟨hcr, hrt⟩ | ⟨htr, hrc⟩
  · rw [h]
    exact ⟨hct, le32_refl (not_isNaN_of_lt32 hct).2⟩
  · exact ⟨hcr, le32_of_lt32 hrt⟩
  · exact absurd (lt32_trans htr hrc) (by simp [lt32_asymm hct])

/-- Above its target SmoothStep moves down, and not past it. -/
theorem smoothStep_falls {c t : Word} (htc : lt32 t c = true) (s : Word) :
    lt32 (smoothStep c t s) c = true ∧ le32 t (smoothStep c t s) = true := by
  rcases smoothStep_eq_target_or_between c t s with h | ⟨hcr, hrt⟩ | ⟨htr, hrc⟩
  · rw [h]
    exact ⟨htc, le32_refl (not_isNaN_of_lt32 htc).1⟩
  · exact absurd (lt32_trans hcr hrt) (by simp [lt32_asymm htc])
  · exact ⟨hrc, le32_of_lt32 htr⟩

/-- Settles O34: the formula is answered only strictly between the current value and the target. -/
theorem smoothStepMovesTowardItsTarget : Obligations.SmoothStepMovesTowardItsTarget := by
  intro c t s _ _
  refine ⟨fun hct => smoothStep_rises hct s, fun htc => smoothStep_falls htc s, fun h => smoothStep_of_eq h s,
    fun h => smoothStep_of_zero_factor h c t, fun hs r hr => ?_⟩
  obtain rfl : r = smoothFormula c t s := hr
  refine ⟨fun hct => ?_, fun htc => ?_⟩
  · rw [smoothStep_of_below hs hct]
    exact ⟨fun h1 h2 => if_pos (by simp [h1, h2]), fun h => if_neg (by rcases h with h | h <;> simp [h])⟩
  · rw [smoothStep_of_above hs htc]
    exact ⟨fun h1 h2 => if_pos (by simp [h1, h2]), fun h => if_neg (by rcases h with h | h <;> simp [h])⟩

/-- Settles O35: the answer is the target or lies between the two values in range. -/
theorem smoothStepKeepsEveryRange : Obligations.SmoothStepKeepsEveryRange :=
  fun _ _ _ _ s hc ht => inRange_smoothStep hc ht s

/-! ### Arrival -/

/-- The words strictly between a current value and its target: what smoothing can still pass through. -/
def wordsBetween (c t : Word) : Set Word :=
  {w | (lt32 c w = true ∧ lt32 w t = true) ∨ (lt32 t w = true ∧ lt32 w c = true)}

theorem left_notMem_wordsBetween (c t : Word) : c ∉ wordsBetween c t := by
  simp [wordsBetween, lt32_irrefl]

/-- What lies between a word in between and the target lies between the first two. -/
theorem wordsBetween_subset {c t r : Word} (hr : r ∈ wordsBetween c t) : wordsBetween r t ⊆ wordsBetween c t := by
  intro w hw
  rcases hr with ⟨hcr, hrt⟩ | ⟨htr, hrc⟩ <;> rcases hw with ⟨hrw, hwt⟩ | ⟨htw, hwr⟩
  · exact .inl ⟨lt32_trans hcr hrw, hwt⟩
  · exact absurd (lt32_trans htw hwr) (by simp [lt32_asymm hrt])
  · exact absurd (lt32_trans hrw hwt) (by simp [lt32_asymm htr])
  · exact .inr ⟨htw, lt32_trans hwr hrc⟩

/-- A step that does not arrive leaves fewer words between. -/
theorem ncard_wordsBetween_lt {c t r : Word} (hr : r ∈ wordsBetween c t) :
    (wordsBetween r t).ncard < (wordsBetween c t).ncard :=
  Set.ncard_lt_ncard ⟨wordsBetween_subset hr, fun hsub => left_notMem_wordsBetween r t (hsub hr)⟩ (Set.toFinite _)

/-- The current value itself is none of the `2^32` words between. -/
theorem ncard_wordsBetween_lt_two_pow (c t : Word) : (wordsBetween c t).ncard < 2 ^ 32 := by
  have hlt := Set.ncard_lt_card ((Set.ne_univ_iff_exists_notMem _).2 ⟨c, left_notMem_wordsBetween c t⟩)
  rwa [Nat.card_congr BitVec.equivFin.toEquiv, Nat.card_fin] at hlt

theorem smoothAfter_succ (t f : Word) (n : Nat) (c : Word) :
    smoothAfter t f (n + 1) c = smoothAfter t f n (smoothStep c t f) := rfl

theorem smoothAfter_self (t f : Word) (n : Nat) : smoothAfter t f n t = t :=
  Function.iterate_fixed (smoothStep_self t f) n

/-- Smoothing arrives once it has taken more steps than there are words between. -/
theorem smoothAfter_of_ncard_lt {t : Word} (f : Word) {n : Nat} {c : Word} (h : (wordsBetween c t).ncard < n) :
    smoothAfter t f n c = t := by
  induction n generalizing c with
  | zero => exact absurd h (Nat.not_lt_zero _)
  | succ n ih =>
    rw [smoothAfter_succ]
    rcases smoothStep_eq_target_or_between c t f with harrived | hbetween
    · rw [harrived, smoothAfter_self]
    · have hcard := ncard_wordsBetween_lt hbetween
      exact ih (by omega)

theorem smoothAfter_of_two_pow_le (t f c : Word) {n : Nat} (h : 2 ^ 32 ≤ n) : smoothAfter t f n c = t :=
  smoothAfter_of_ncard_lt f ((ncard_wordsBetween_lt_two_pow c t).trans_le h)

/-- Settles O36: each step arrives or passes a word for good, and there are `2^32` words. -/
theorem smoothingReachesBothTargets : Obligations.SmoothingReachesBothTargets := by
  intro s h hv
  refine ⟨2 ^ 32, le_rfl, fun xs hxs => ?_⟩
  obtain ⟨t, hrun⟩ := h.exists_execAll (xs.map .process)
  have hadv := advanced_of_execAll (h.canStore hv) hrun
  exact ⟨t, hrun, hadv.currentDelay.trans (smoothAfter_of_two_pow_le _ _ _ hxs),
    hadv.currentGain.trans (smoothAfter_of_two_pow_le _ _ _ hxs), hadv.targetDelay, hadv.targetGain⟩

end Sys2Proof.Machine
end

section
/-! PROOFS. The read position (R36, R63): whole delays exactly, fractional ones to within `2^-25` of a sample. -/

namespace Sys2Proof.Machine

variable {w capacity n ph : Nat} {d phi : Word}

/-! ### Positions and ranges, by units -/

theorem inRange_of_finiteUnits {lo hi : Word} {a x b : Int} (hlo : finiteUnits lo = some a)
    (hd : finiteUnits d = some x) (hhi : finiteUnits hi = some b) (hax : a ≤ x) (hxb : x ≤ b) : InRange lo hi d :=
  ⟨le32_iff.2 ⟨a, x, position_of_finiteUnits hlo, position_of_finiteUnits hd, hax⟩,
    le32_iff.2 ⟨x, b, position_of_finiteUnits hd, position_of_finiteUnits hhi, hxb⟩⟩

/-- `a == b` on finite values compares their units. -/
theorem eq32_of_finiteUnits {a b : Word} {x y : Int} (ha : finiteUnits a = some x) (hb : finiteUnits b = some y) :
    eq32 a b = decide (x = y) :=
  eq32_eq_decide (position_of_finiteUnits ha) (position_of_finiteUnits hb)

theorem finiteUnits_zeroWord : finiteUnits zeroWord = some 0 := by decide

theorem finiteUnits_oneWord : finiteUnits oneWord = some (2 ^ 149) := by decide

/-- ReadPosition splits a delay in range into its whole samples and the rest. -/
theorem readPosition_of_finiteUnits {mag : Nat} (hw : w < capacity) (hcap : capacity < 2 ^ 24)
    (hd : finiteUnits d = some (mag : Int)) (hle : mag ≤ capacity * 2 ^ 149) :
    readPosition w d capacity =
      some (readPositionFrom w (mag / 2 ^ 149) capacity (sub32 d (i2f (mag / 2 ^ 149)))) := by
  have hrange : InRange zeroWord (i2f capacity) d :=
    inRange_of_finiteUnits finiteUnits_zeroWord hd (finiteUnits_i2f hcap.le) (by omega) (by omega)
  rw [readPosition, if_pos ⟨hw, hrange.1, hrange.2⟩, floorInt_eq hd, Option.map_some]

/-- The fraction of a delay of `n` whole samples and `ph` units is exact. -/
theorem finiteUnits_fraction (hn : n < 2 ^ 24) (hph : ph < 2 ^ 149)
    (hd : finiteUnits d = some ((n : Int) * 2 ^ 149 + ph)) : finiteUnits (sub32 d (i2f n)) = some (ph : Int) := by
  have hdiv : (n * 2 ^ 149 + ph) / 2 ^ 149 = n := by omega
  have hsub := finiteUnits_sub32_floor (r := d) (mag := n * 2 ^ 149 + ph) (by exact_mod_cast hd) (by omega)
  rw [hdiv] at hsub
  rw [hsub]
  congr 1
  omega

/-- ReadPosition of a delay of `n` whole samples and `ph` units. -/
theorem readPosition_eq_readPositionFrom (hw : w < capacity) (hcap : capacity < 2 ^ 24) (hph : ph < 2 ^ 149)
    (hle : n * 2 ^ 149 + ph ≤ capacity * 2 ^ 149) (hd : finiteUnits d = some ((n : Int) * 2 ^ 149 + ph)) :
    readPosition w d capacity = some (readPositionFrom w n capacity (sub32 d (i2f n))) := by
  have hdiv : (n * 2 ^ 149 + ph) / 2 ^ 149 = n := by omega
  have hpos := readPosition_of_finiteUnits hw hcap (mag := n * 2 ^ 149 + ph) (by exact_mod_cast hd) hle
  rwa [hdiv] at hpos

/-! ### Whole delays -/

/-- A whole delay reads one slot, unweighted. -/
theorem readPosition_of_whole (hw : w < capacity) (hcap : capacity < 2 ^ 24) (hn : n ≤ capacity)
    (hd : finiteUnits d = some ((n : Int) * 2 ^ 149)) :
    readPosition w d capacity = some (readPosAt ((w + capacity - n) % capacity) capacity zeroWord) := by
  have hd0 : finiteUnits d = some ((n : Int) * 2 ^ 149 + (0 : Nat)) := by simpa using hd
  have hphi := finiteUnits_fraction (by omega) (by decide) hd0
  have hzero : eq32 (sub32 d (i2f n)) zeroWord = true := by
    rw [eq32_of_finiteUnits hphi finiteUnits_zeroWord]
    rfl
  rw [readPosition_eq_readPositionFrom hw hcap (by decide) (by omega) hd0, readPositionFrom, if_pos hzero,
    modCapacity_eq_mod (by omega)]

/-- Settles O38: both are whole delays, and `capacity` slots before the cursor is the cursor. -/
theorem delayZeroActsAsDelayCapacity : Obligations.DelayZeroActsAsDelayCapacity := by
  intro w capacity hw hcap
  have hcursor : (w + capacity - capacity) % capacity = w := by
    rw [Nat.add_sub_cancel, Nat.mod_eq_of_lt hw]
  have hzero : (w + capacity - 0) % capacity = w := by
    rw [Nat.sub_zero, Nat.add_mod_right, Nat.mod_eq_of_lt hw]
  have hread0 := readPosition_of_whole (n := 0) hw hcap (Nat.zero_le _) finiteUnits_zeroWord
  have hreadCap := readPosition_of_whole hw hcap le_rfl (finiteUnits_i2f hcap.le)
  rw [hzero] at hread0
  rw [hcursor] at hreadCap
  exact ⟨_, hread0, hreadCap, rfl, show eq32 zeroWord zeroWord = true by decide⟩

/-! ### Fractional delays -/

/-- Every number of units up to that of 1.0 has a value within `2^-25` of it. -/
theorem exists_finiteUnits_near {m : Nat} (hm : m ≤ 2 ^ 149) :
    ∃ c, ∃ cu : Nat, finiteUnits c = some (cu : Int) ∧ ((cu : Int) - m).natAbs ≤ 2 ^ 124 := by
  obtain ⟨c, hc⟩ := exists_finiteUnits (show (m + 2 ^ 124) / 2 ^ 125 ≤ 2 ^ 24 by omega) (show 125 ≤ 252 by decide)
  exact ⟨c, _, hc, by omega⟩

/-- The weight `1 - phi` of a fraction of `ph` units, rounded: within `2^-25` of the exact one, and 1.0 only for a
fraction that small. -/
theorem finiteUnits_weight (hph : ph ≤ 2 ^ 149) (hphi : finiteUnits phi = some (ph : Int)) :
    ∃ fu, finiteUnits (sub32 oneWord phi) = some fu ∧ 0 ≤ fu ∧ fu ≤ 2 ^ 149 ∧
      (fu - (2 ^ 149 - ph)).natAbs ≤ 2 ^ 124 ∧ (fu = 2 ^ 149 → ph ≤ 2 ^ 124) := by
  have hround := (addAndSubRoundOnceToNearestEven _ _ _ _ finiteUnits_oneWord hphi).2
  have hbound : ((2 : Int) ^ 149 - ph).natAbs < (2 ^ 277 - 2 ^ 252) * 1 := by omega
  obtain ⟨fu, hfu, hnear⟩ := hround.1 hbound
  obtain ⟨c, cu, hc, hclose⟩ := exists_finiteUnits_near (Nat.sub_le (2 ^ 149) ph)
  obtain ⟨below, hbelow⟩ := exists_finiteUnits (show 2 ^ 24 - 1 ≤ 2 ^ 24 by decide) (show 125 ≤ 252 by decide)
  have h0 := (hnear _ _ finiteUnits_zeroWord).1
  have h1 := (hnear _ _ finiteUnits_oneWord).1
  have hmid := (hnear _ _ hc).1
  have hlast := (hnear _ _ hbelow).1
  refine ⟨fu, hfu, by omega, by omega, by omega, by omega⟩

/-- A fractional delay reads two slots and weights the later one, or reads the later one alone where its weight
rounds to 1.0. -/
theorem readPositionFrom_of_fraction (hw : w < capacity) (hn : n < capacity) (hphi : eq32 phi zeroWord = false) :
    readPositionFrom w n capacity phi =
      if eq32 (sub32 oneWord phi) oneWord = true then
        readPosAt ((w + capacity - n) % capacity) capacity zeroWord
      else readPosAt ((w + capacity - n - 1) % capacity) capacity (sub32 oneWord phi) := by
  have hi0 : modCapacity (w + capacity - n - 1) capacity = (w + capacity - n - 1) % capacity :=
    modCapacity_eq_mod (by omega)
  have hlt : (w + capacity - n - 1) % capacity < capacity := Nat.mod_lt _ (by omega)
  have hnext : modCapacity ((w + capacity - n - 1) % capacity + 1) capacity = (w + capacity - n) % capacity := by
    rw [modCapacity_eq_mod (by omega), Nat.mod_add_mod, Nat.sub_add_cancel (by omega)]
  simp [readPositionFrom, hphi, hi0, hnext]

/-- ReadPosition of `n` whole samples and a fraction. -/
theorem readPosition_of_fraction (hw : w < capacity) (hcap : capacity < 2 ^ 24) (hn : n < capacity) (hph0 : ph ≠ 0)
    (hph : ph < 2 ^ 149) (hd : finiteUnits d = some ((n : Int) * 2 ^ 149 + ph)) :
    readPosition w d capacity = some (
      if eq32 (sub32 oneWord (sub32 d (i2f n))) oneWord = true then
        readPosAt ((w + capacity - n) % capacity) capacity zeroWord
      else readPosAt ((w + capacity - n - 1) % capacity) capacity (sub32 oneWord (sub32 d (i2f n)))) := by
  have hphi : eq32 (sub32 d (i2f n)) zeroWord = false := by
    rw [eq32_of_finiteUnits (finiteUnits_fraction (by omega) hph hd) finiteUnits_zeroWord]
    exact decide_eq_false (by omega)
  rw [readPosition_eq_readPositionFrom hw hcap hph (by omega) hd, readPositionFrom_of_fraction hw hn hphi]

/-- The second slot of a position follows the first. -/
theorem readPosAt_i1 {i0 : Nat} (h : i0 < capacity) (f : Word) :
    (readPosAt i0 capacity f).i1 = (i0 + 1) % capacity :=
  modCapacity_eq_mod (by omega)

/-- Settles O37: the fraction of the delay is exact, and its weight is rounded once. -/
theorem readPositionIsTheFractionalDelay : Obligations.ReadPositionIsTheFractionalDelay := by
  intro w capacity d x hw hcap hd hx
  obtain ⟨x', hx', hpos, hle⟩ := finiteUnits_of_inRange finiteUnits_zeroWord (finiteUnits_i2f hcap.le) hd
  obtain rfl : x = x' := Option.some.inj (hx.symm.trans hx')
  obtain ⟨n, ph, hph, rfl⟩ : ∃ n ph : Nat, ph < 2 ^ 149 ∧ x = (n : Int) * 2 ^ 149 + ph :=
    ⟨x.toNat / 2 ^ 149, x.toNat % 2 ^ 149, Nat.mod_lt _ (by decide), by omega⟩
  have hslot (i : Nat) : i % capacity < capacity := Nat.mod_lt _ (by omega)
  by_cases hzero : ph = 0
  · subst hzero
    refine ⟨_, 0, readPosition_of_whole hw hcap (by omega) (by simpa using hx), finiteUnits_zeroWord, hslot _,
      readPosAt_i1 (hslot _) _, le_rfl, by decide, n, 0, rfl, hph, fun _ => ⟨rfl, rfl⟩, fun h => absurd rfl h⟩
  · obtain ⟨fu, hfu, hfu0, hfu1, herror, hone⟩ :=
      finiteUnits_weight hph.le (finiteUnits_fraction (by omega) hph hx)
    rw [readPosition_of_fraction hw hcap (by omega) hzero hph hx, eq32_of_finiteUnits hfu finiteUnits_oneWord]
    by_cases hrounds : fu = 2 ^ 149
    · rw [if_pos (decide_eq_true hrounds)]
      exact ⟨_, 0, rfl, finiteUnits_zeroWord, hslot _, readPosAt_i1 (hslot _) _, le_rfl, by decide, n, ph, rfl, hph,
        fun h => absurd h hzero, fun _ => .inr ⟨rfl, rfl, hone hrounds⟩⟩
    · rw [if_neg (by simpa using hrounds)]
      exact ⟨_, fu, rfl, hfu, hslot _, readPosAt_i1 (hslot _) _, hfu0, by omega, n, ph, rfl, hph,
        fun h => absurd h hzero, fun _ => .inl ⟨rfl, herror⟩⟩

end Sys2Proof.Machine
end

section
/-! PROOFS. The delay line (R39, R67): what was stored some samples ago is what a delay of as many reads. -/

namespace Sys2Proof.Machine

variable {s s1 t : State} {d : Word} {n : Nat}

/-! ### Slots behind the cursor -/

/-- `n` slots behind a cursor that has moved on by `n` is where it was. -/
theorem cursor_back {w capacity : Nat} (hw : w < capacity) (hn : n ≤ capacity) :
    ((w + n) % capacity + capacity - n) % capacity = w := by
  rw [← modCapacity_eq_mod (a := w + n) (by omega)]
  have hlt := modCapacity_lt (a := w + n) (n := capacity) (by omega)
  rw [← modCapacity_eq_mod (by omega)]
  unfold modCapacity at *
  split <;> split <;> omega

/-- A cursor that moves on by less than a round does not come back. -/
theorem cursor_moved_ne {w capacity : Nat} (hw : w < capacity) (hpos : 0 < n) (hn : n < capacity) :
    (w + n) % capacity ≠ w := by
  rw [← modCapacity_eq_mod (by omega)]
  unfold modCapacity
  split <;> omega

/-- What a sample stores stays until the cursor has gone round. -/
theorem read_of_advanced (hw : s.writeCursor.toNat < s.capacity.toNat) (hfirst : Advanced 1 s s1)
    (hrest : Advanced n s1 t) (hn : n < s.capacity.toNat) :
    Memory.read t.buffer s.writeCursor.toNat = Memory.read s1.buffer s.writeCursor.toNat := by
  refine hrest.slots _ fun i hi => ?_
  rw [hfirst.capacity, hfirst.cursor, Nat.mod_add_mod, Nat.add_assoc]
  exact cursor_moved_ne hw (by omega) (by omega)

/-! ### Reading the line -/

theorem interpolate_zeroWord (b0 b1 : Word) : interpolate b0 b1 zeroWord = b0 := if_pos (by decide)

/-- The delayed sample of a state whose delay is set to `d`, from the position of `d`. -/
theorem delayedSample_withDelay {i0 : Nat} {f : Word}
    (hp : readPosition s.writeCursor.toNat d s.capacity.toNat = some (readPosAt i0 s.capacity.toNat f))
    (h0 : i0 < s.capacity.toNat) :
    delayedSample { s with currentDelay := d } =
      .ok (interpolate (Memory.read s.buffer i0) (Memory.read s.buffer ((i0 + 1) % s.capacity.toNat)) f) := by
  obtain ⟨-, h1⟩ := readPosAt_lt h0 f
  rw [delayedSample_of_position (s := { s with currentDelay := d }) hp h0 h1, readPosAt_i1 h0]
  rfl

/-- Settles O39: the read position of a delay of `k` is the slot of the sample stored `k` ago, which no later
sample has written. -/
theorem integralDelayReturnsTheValueStoredThen : Obligations.IntegralDelayReturnsTheValueStoredThen := by
  intro s s1 t x xs h hv hexec hrun hlen
  have hstart := h.canStore hv
  have hfirst := advanced_of_exec hv h.buffer_wf hexec
  have hrest := advanced_of_execAll hfirst.canStore hrun
  have hall := hfirst.trans hrest
  have hslot : (t.writeCursor.toNat + t.capacity.toNat - (xs.length + 1)) % t.capacity.toNat =
      s.writeCursor.toNat := by
    rw [hall.capacity, hall.cursor, Nat.add_comm 1]
    exact cursor_back hstart.cursor_lt hlen
  have hbound : xs.length + 1 ≤ t.capacity.toNat := hall.capacity ▸ hlen
  have hp := readPosition_of_whole hall.canStore.cursor_lt t.capacity.isLt hbound
    (finiteUnits_i2f (hbound.trans t.capacity.isLt.le))
  rw [hslot] at hp
  rw [delayedSample_withDelay hp (hall.capacity ▸ hstart.cursor_lt), interpolate_zeroWord,
    read_of_advanced hstart.cursor_lt hfirst hrest hlen]

/-! ### Fractional delays -/

/-- A delay strictly between two whole numbers of samples is the lower one and a fraction. -/
theorem exists_fraction_of_between (hn : n < 2 ^ 24) (hlow : lt32 (i2f n) d = true)
    (hhigh : lt32 d (i2f (n + 1)) = true) :
    ∃ ph : Nat, ph ≠ 0 ∧ ph < 2 ^ 149 ∧ finiteUnits d = some ((n : Int) * 2 ^ 149 + ph) := by
  have hnUnits := finiteUnits_i2f hn.le
  have hsuccUnits := finiteUnits_i2f hn
  obtain ⟨x, hx, -, -⟩ := finiteUnits_of_inRange hnUnits hsuccUnits ⟨le32_of_lt32 hlow, le32_of_lt32 hhigh⟩
  rw [lt32_eq_decide (position_of_finiteUnits hnUnits) (position_of_finiteUnits hx), decide_eq_true_iff] at hlow
  rw [lt32_eq_decide (position_of_finiteUnits hx) (position_of_finiteUnits hsuccUnits), decide_eq_true_iff] at hhigh
  push_cast at hhigh
  exact ⟨(x - (n : Int) * 2 ^ 149).toNat, by omega, by omega, hx.trans (congrArg some (by omega))⟩

/-- The fraction of a delay above one sample is at least `2^-23`, the last place of 1.0. -/
theorem two_pow_le_fraction {ph : Nat} (hpos : 0 < n) (hph : ph ≠ 0)
    (hd : finiteUnits d = some ((n : Int) * 2 ^ 149 + ph)) : 2 ^ 126 ≤ ph := by
  obtain ⟨q, shift, hq, -, hmag⟩ := natAbs_of_finiteUnits hd
  have hmag : n * 2 ^ 149 + ph = q * 2 ^ shift := by omega
  have hshift : 126 ≤ shift := by
    by_contra hlt
    have hle : q * 2 ^ shift ≤ 2 ^ 24 * 2 ^ 125 :=
      Nat.mul_le_mul hq.le (Nat.pow_le_pow_right (by decide) (by omega))
    omega
  have hdvd : 2 ^ 126 ∣ n * 2 ^ 149 + ph := hmag ▸ Dvd.dvd.mul_left (pow_dvd_pow 2 hshift) q
  omega

/-- A fraction that large has a weight below 1.0. -/
theorem weight_ne_one {ph : Nat} (hn : n < 2 ^ 24) (hpos : 0 < n) (hph0 : ph ≠ 0) (hph : ph < 2 ^ 149)
    (hd : finiteUnits d = some ((n : Int) * 2 ^ 149 + ph)) :
    eq32 (sub32 oneWord (sub32 d (i2f n))) oneWord = false := by
  obtain ⟨fu, hfu, -, -, -, hone⟩ := finiteUnits_weight hph.le (finiteUnits_fraction hn hph hd)
  have hlarge := two_pow_le_fraction hpos hph0 hd
  rw [eq32_of_finiteUnits hfu finiteUnits_oneWord]
  exact decide_eq_false fun h => by have := hone h; omega

/-- A word is told from its value, but for zeros. -/
theorem unpack_eq_of_finiteUnits {a b : Word} {x : Int} (hx : x ≠ 0) (ha : finiteUnits a = some x)
    (hb : finiteUnits b = some x) : unpack a = unpack b := by
  obtain ⟨na, ma, hua, rfl⟩ := finiteUnits_eq_some.1 ha
  obtain ⟨nb, mb, hub, heq⟩ := finiteUnits_eq_some.1 hb
  have hmag : ma = mb := by simpa using congrArg Int.natAbs heq
  have hma : ma ≠ 0 := mt signedUnits_eq_zero.2 hx
  have hsign : na = nb := by
    rw [← signedUnits_neg_iff (neg := na) hma, ← signedUnits_neg_iff (neg := nb) (hmag ▸ hma), heq]
  rw [hua, hub, hmag, hsign]

/-- A fractional delay below one sample is its own fraction. -/
theorem weight_of_below_one {ph : Nat} (hph0 : ph ≠ 0) (hph : ph < 2 ^ 149) (hd : finiteUnits d = some (ph : Int)) :
    sub32 oneWord (sub32 d (i2f 0)) = sub32 oneWord d := by
  have hphi : finiteUnits (sub32 d (i2f 0)) = some (ph : Int) :=
    finiteUnits_fraction (by decide) hph (by simpa using hd)
  exact congrArg (fun u => addData (unpack oneWord) (negData u)) (unpack_eq_of_finiteUnits (by omega) hphi hd)

/-- Settles O54: the two slots of the position are those stored `k` and `k - 1` samples ago, or the one stored last
and the cursor's own. -/
theorem fractionalDelayMixesTheTwoStoredThen : Obligations.FractionalDelayMixesTheTwoStoredThen := by
  refine ⟨fun s s1 s2 t x x' xs d hwf hv hexec hexec' hrun hlen hlow hhigh => ?above,
    fun s t x d hwf hv hexec hlow hhigh => ?below⟩
  case above =>
    obtain ⟨hw, -⟩ := exec_process_of_engine hv hexec
    have hfirst := advanced_of_exec hv hwf hexec
    have hsecond := advanced_of_exec hfirst.canStore.valid hfirst.canStore.buffer_wf hexec'
    have hrest := advanced_of_execAll hsecond.canStore hrun
    have hall := hfirst.trans (hsecond.trans hrest)
    have hcap : t.capacity.toNat = s.capacity.toNat := congrArg _ hall.capacity
    have hcap24 := s.capacity.isLt
    obtain ⟨ph, hph0, hph, hd⟩ := exists_fraction_of_between (by omega) hlow hhigh
    have hslot : (t.writeCursor.toNat + t.capacity.toNat - (xs.length + 1) - 1) % t.capacity.toNat =
        s.writeCursor.toNat := by
      rw [hcap, hall.cursor, show 1 + (1 + xs.length) = xs.length + 2 by omega, Nat.sub_sub]
      exact cursor_back hw hlen
    have hp := readPosition_of_fraction hall.canStore.cursor_lt t.capacity.isLt (by omega) hph0 hph hd
    rw [if_neg (by simp [weight_ne_one (by omega) (Nat.succ_pos _) hph0 hph hd]), hslot] at hp
    rw [delayedSample_withDelay hp (hcap ▸ hw), hcap, ← hfirst.cursor,
      read_of_advanced hw hfirst (hsecond.trans hrest) (by omega),
      read_of_advanced hfirst.canStore.cursor_lt hsecond hrest (by rw [hfirst.capacity]; omega)]
    rfl
  case below =>
    obtain ⟨hw, -⟩ := exec_process_of_engine hv hexec
    have hadv := advanced_of_exec hv hwf hexec
    have hcap : t.capacity.toNat = s.capacity.toNat := congrArg _ hadv.capacity
    have htw := hadv.canStore.cursor_lt
    rw [show (0x00000000#32 : Word) = i2f 0 by decide] at hlow
    rw [show (0x3F800000#32 : Word) = i2f 1 by decide] at hhigh
    obtain ⟨ph, hph0, hph, hd⟩ := exists_fraction_of_between (by decide) hlow hhigh
    have hcursor : (t.writeCursor.toNat + t.capacity.toNat - 0) % t.capacity.toNat = t.writeCursor.toNat := by
      rw [Nat.sub_zero, Nat.add_mod_right, Nat.mod_eq_of_lt htw]
    have hlast : (t.writeCursor.toNat + t.capacity.toNat - 0 - 1) % t.capacity.toNat = s.writeCursor.toNat := by
      rw [Nat.sub_zero, hcap, hadv.cursor]
      exact cursor_back hw (by omega)
    have hp := readPosition_of_fraction htw t.capacity.isLt (by omega) hph0 hph hd
    rw [hcursor, hlast, weight_of_below_one hph0 hph (by simpa using hd)] at hp
    change _ = Except.ok (if eq32 (sub32 oneWord d) oneWord = true then _ else interpolate _ _ (sub32 oneWord d))
    split at hp
    · next hone => rw [if_pos hone, delayedSample_withDelay hp htw, interpolate_zeroWord]
    · next hone => rw [if_neg hone, delayedSample_withDelay hp (hcap ▸ hw), hcap, ← hadv.cursor]

end Sys2Proof.Machine
end

section
/-! PROOFS. The interpolation and the all-pass stage (R64, R65, R68, R71): zeros, NaNs and infinities on their
inputs. -/

namespace Sys2Proof.Machine

/-! ### Exact results -/

/-- A quotient that is a finite value is its own rounding. -/
theorem RoundedToNearest.exact_mul {r c : Word} {cu : Int} {den : Nat} (hden : 0 < den)
    (hround : RoundedToNearest r (cu * den) den) (hc : finiteUnits c = some cu) : finiteUnits r = some cu := by
  have hbound : (cu * den).natAbs < (2 ^ 277 - 2 ^ 252) * den := by
    rw [Int.natAbs_mul, Int.natAbs_natCast]
    exact Nat.mul_lt_mul_of_pos_right (natAbs_lt_overflow_threshold hc) hden
  obtain ⟨ru, hr, hnearest⟩ := hround.1 hbound
  have herr := (hnearest c cu hc).1
  rw [← Int.sub_mul, Int.sub_self, Int.natAbs_zero, Nat.le_zero, Int.natAbs_eq_zero] at herr
  obtain rfl : ru = cu := sub_eq_zero.1 ((Int.mul_eq_zero.1 herr).resolve_right (Int.natCast_ne_zero.2 hden.ne'))
  exact hr

section
variable {a b z : Word} {x : Int}

theorem finiteUnits_add32_zero (ha : finiteUnits a = some x) (hz : finiteUnits z = some 0) :
    finiteUnits (add32 a z) = some x := by
  have hround := (addAndSubRoundOnceToNearestEven a z x 0 ha hz).1
  rw [add_zero] at hround
  exact hround.exact ha

theorem finiteUnits_sub32_zero (ha : finiteUnits a = some x) (hz : finiteUnits z = some 0) :
    finiteUnits (sub32 a z) = some x := by
  have hround := (addAndSubRoundOnceToNearestEven a z x 0 ha hz).2
  rw [sub_zero] at hround
  exact hround.exact ha

theorem finiteUnits_sub32_self (ha : finiteUnits a = some x) : finiteUnits (sub32 a a) = some 0 := by
  have hround := (addAndSubRoundOnceToNearestEven a a x x ha ha).2
  rw [sub_self] at hround
  exact hround.exact finiteUnits_zeroWord

/-- A product with a zero is a zero. -/
theorem finiteUnits_mul32_of_zero (ha : finiteUnits a = some x) (hz : finiteUnits z = some 0) :
    finiteUnits (mul32 a z) = some 0 ∧ finiteUnits (mul32 z a) = some 0 := by
  have hzero : (0 : Int) = 0 * (2 ^ 149 : Nat) := by simp
  have hleft := mulRoundsOnceToNearestEven a z x 0 ha hz
  have hright := mulRoundsOnceToNearestEven z a 0 x hz ha
  rw [mul_zero, hzero] at hleft
  rw [zero_mul, hzero] at hright
  exact ⟨hleft.exact_mul (Nat.two_pow_pos 149) finiteUnits_zeroWord,
    hright.exact_mul (Nat.two_pow_pos 149) finiteUnits_zeroWord⟩

theorem finiteUnits_mul32_one (ha : finiteUnits a = some x) : finiteUnits (mul32 a oneWord) = some x := by
  have hround := mulRoundsOnceToNearestEven a oneWord x (2 ^ 149) ha finiteUnits_oneWord
  exact RoundedToNearest.exact_mul (Nat.two_pow_pos 149) (by exact_mod_cast hround) ha

end

/-! ### NaNs -/

/-- A NaN operand gives the canonical NaN (R13). -/
theorem results_of_isNaN {a b : Word} (h : isNaN a = true ∨ isNaN b = true) :
    add32 a b = Config.canonicalNaN ∧ sub32 a b = Config.canonicalNaN ∧ mul32 a b = Config.canonicalNaN :=
  (naNResultsAreCanonical a b).2.2.2 h

theorem isNaN_canonicalNaN : isNaN Config.canonicalNaN = true := by decide

/-- A sum whose second addend has a NaN factor is the canonical NaN. -/
theorem add32_mul32_of_isNaN {a b c : Word} (h : isNaN c = true) : add32 a (mul32 b c) = Config.canonicalNaN := by
  obtain ⟨-, -, hmul⟩ := results_of_isNaN (a := b) (.inr h)
  rw [hmul]
  exact (results_of_isNaN (.inr isNaN_canonicalNaN)).1

theorem allpassStored_of_isNaN {x delayed : Word} (h : isNaN x = true ∨ isNaN delayed = true) (g : Word) :
    allpassStored x delayed g = Config.canonicalNaN := by
  rcases h with hx | hdelayed
  · exact (results_of_isNaN (.inl hx)).1
  · exact add32_mul32_of_isNaN hdelayed

theorem allpassOutput_of_nan (delayed g : Word) : allpassOutput delayed g Config.canonicalNaN = Config.canonicalNaN := by
  obtain ⟨-, -, hmul⟩ := results_of_isNaN (a := g) (.inr isNaN_canonicalNaN)
  rw [allpassOutput, hmul]
  exact (results_of_isNaN (.inr isNaN_canonicalNaN)).2.1

/-- Settles O41: the sum that is stored has a NaN addend, and so has the difference that is answered. -/
theorem naNSamplesSpread : Obligations.NaNSamplesSpread := by
  intro x delayed g h
  rw [allpassStored_of_isNaN h]
  exact ⟨rfl, allpassOutput_of_nan delayed g⟩

/-! ### A gain of zero -/

/-- A word equal to 0.0 has the value 0. -/
theorem finiteUnits_of_eq32_zero {g : Word} (h : eq32 g zeroWord = true) : finiteUnits g = some 0 := by
  obtain ⟨x, hx, hzero⟩ := eq32_iff.1 h
  have hx0 : x = 0 := Option.some.inj (hzero.symm.trans (position_of_finiteUnits finiteUnits_zeroWord))
  have hg : le32 g zeroWord = true := le32_iff.2 ⟨x, x, hx, hzero, le_rfl⟩
  have hg' : le32 zeroWord g = true := le32_iff.2 ⟨x, x, hzero, hx, le_rfl⟩
  obtain ⟨y, hy, hlow, hhigh⟩ := finiteUnits_of_inRange finiteUnits_zeroWord finiteUnits_zeroWord ⟨hg', hg⟩
  rw [hy, le_antisymm hhigh hlow]

/-- Settles O42: both products with the gain are zeros. -/
theorem zeroGainIsAPureDelay : Obligations.ZeroGainIsAPureDelay := by
  intro x delayed g hx hdelayed hg
  obtain ⟨xu, hx⟩ := Option.ne_none_iff_exists'.1 hx
  obtain ⟨du, hdelayed⟩ := Option.ne_none_iff_exists'.1 hdelayed
  have hg := finiteUnits_of_eq32_zero hg
  have hstored : finiteUnits (allpassStored x delayed g) = some xu :=
    finiteUnits_add32_zero hx (finiteUnits_mul32_of_zero hdelayed hg).2
  have houtput : finiteUnits (allpassOutput delayed g (allpassStored x delayed g)) = some du :=
    finiteUnits_sub32_zero hdelayed (finiteUnits_mul32_of_zero hstored hg).2
  rw [eq32_of_finiteUnits hstored hx, eq32_of_finiteUnits houtput hdelayed]
  exact ⟨decide_eq_true rfl, decide_eq_true rfl⟩

/-! ### Interpolation -/

theorem interpolate_of_weight {f : Word} (hf : eq32 f zeroWord = false) (b0 b1 : Word) :
    interpolate b0 b1 f = add32 b0 (mul32 f (sub32 b1 b0)) :=
  if_neg (by simp [hf])

/-- Two equal finite slots give their value. -/
theorem interpolate_self {b f : Word} {x fu : Int} (hb : finiteUnits b = some x) (hfu : finiteUnits f = some fu)
    (hf : eq32 f zeroWord = false) : finiteUnits (interpolate b b f) = some x := by
  rw [interpolate_of_weight hf]
  exact finiteUnits_add32_zero hb (finiteUnits_mul32_of_zero hfu (finiteUnits_sub32_self hb)).1

/-- A NaN in either slot gives the canonical NaN. -/
theorem interpolate_of_isNaN {b0 b1 f : Word} (hf : eq32 f zeroWord = false)
    (h : isNaN b0 = true ∨ isNaN b1 = true) : interpolate b0 b1 f = Config.canonicalNaN := by
  obtain ⟨-, hsub, -⟩ := results_of_isNaN h.symm
  rw [interpolate_of_weight hf, hsub]
  exact add32_mul32_of_isNaN isNaN_canonicalNaN

/-- A positive weight keeps an infinity. -/
theorem mul32_infinityOf_of_pos {f : Word} {fu : Int} (hfu : finiteUnits f = some fu) (hpos : 0 < fu) (neg : Bool) :
    mul32 f (infinityOf neg) = infinityOf neg := by
  obtain ⟨-, -, -, hfinite⟩ := infinitiesFollowIEEE754 neg neg
  obtain ⟨-, -, -, -, -, hmul⟩ := hfinite f fu hfu
  rw [(hmul (by omega)).2, decide_eq_false (by omega), Bool.xor_false]

/-- An infinite second slot over a finite first gives that infinity. -/
theorem interpolate_finite_infinityOf {b0 f : Word} {x fu : Int} (hb : finiteUnits b0 = some x)
    (hfu : finiteUnits f = some fu) (hpos : 0 < fu) (hf : eq32 f zeroWord = false) (neg : Bool) :
    interpolate b0 (infinityOf neg) f = infinityOf neg := by
  obtain ⟨-, -, -, hfinite⟩ := infinitiesFollowIEEE754 neg neg
  obtain ⟨-, hadd, hsub, -⟩ := hfinite b0 x hb
  rw [interpolate_of_weight hf, hsub, mul32_infinityOf_of_pos hfu hpos, hadd]

/-- What is left after an infinity is taken off is a NaN or the opposite infinity. -/
theorem sub32_infinityOf (b : Word) (neg : Bool) :
    isNaN (sub32 b (infinityOf neg)) = true ∨ sub32 b (infinityOf neg) = infinityOf (!neg) := by
  rw [sub32, unpack_infinityOf, negData]
  cases unpack b with
  | nan => exact .inl isNaN_canonicalNaN
  | infinite nb =>
    rw [addData]
    split
    · next h => exact .inr (h ▸ infinityWord_eq _)
    · exact .inl isNaN_canonicalNaN
  | finite nb mb => exact .inr (infinityWord_eq _)

/-- An infinite first slot gives the canonical NaN. -/
theorem interpolate_infinityOf {f : Word} {fu : Int} (hfu : finiteUnits f = some fu) (hpos : 0 < fu)
    (hf : eq32 f zeroWord = false) (neg : Bool) (b1 : Word) :
    interpolate (infinityOf neg) b1 f = Config.canonicalNaN := by
  rw [interpolate_of_weight hf]
  rcases sub32_infinityOf b1 neg with hnan | hinf
  · exact add32_mul32_of_isNaN hnan
  · obtain ⟨hadd, -⟩ := infinitiesFollowIEEE754 neg (!neg)
    rw [hinf, mul32_infinityOf_of_pos hfu hpos, hadd]
    exact if_neg (by simp)

/-- Settles O40: with a positive weight each case is one of the arithmetic on the difference of the slots. -/
theorem interpolateAtItsEnds : Obligations.InterpolateAtItsEnds := by
  intro b0 b1 f
  refine ⟨fun hf => if_pos hf, fun hf => interpolate_of_weight hf b0 b1, fun hlow hhigh => ?_⟩
  obtain ⟨fu, hfu, -, -⟩ :=
    finiteUnits_of_inRange finiteUnits_zeroWord finiteUnits_oneWord ⟨le32_of_lt32 hlow, le32_of_lt32 hhigh⟩
  have hpos : 0 < fu := of_decide_eq_true ((lt32_eq_decide (position_of_finiteUnits finiteUnits_zeroWord)
    (position_of_finiteUnits hfu)).symm.trans hlow)
  have hf : eq32 f zeroWord = false := by
    rw [eq32_of_finiteUnits hfu finiteUnits_zeroWord]
    exact decide_eq_false (by omega)
  refine ⟨fun hb => ?_, interpolate_of_isNaN hf, fun neg hb hb1 => ?_, fun neg hb => ?_⟩
  · obtain ⟨x, hb⟩ := Option.ne_none_iff_exists'.1 hb
    rw [eq32_of_finiteUnits (interpolate_self hb hfu hf) hb, decide_eq_true_iff]
  · obtain ⟨x, hb⟩ := Option.ne_none_iff_exists'.1 hb
    rw [hb1]
    exact interpolate_finite_infinityOf hb hfu hpos hf neg
  · rw [hb]
    exact interpolate_infinityOf hfu hpos hf neg b1

/-! ### The impulse -/

/-- Turning bit 31 turns the sign of the value. -/
theorem unpack_xor_sign (w : Word) : unpack (w ^^^ 0x80000000#32) = negData (unpack w) := by
  have hexponent : exponentField (w ^^^ 0x80000000#32) = exponentField w := by
    rw [exponentField, exponentField, BitVec.extractLsb'_xor]
    simp
  have hfraction : fractionField (w ^^^ 0x80000000#32) = fractionField w := by
    rw [fractionField, fractionField, BitVec.extractLsb'_xor]
    simp
  have hsign : signBit (w ^^^ 0x80000000#32) = !signBit w := by
    simp [signBit]
  rw [unpack, unpack, hexponent, hfraction, hsign]
  split
  · split <;> rfl
  · split <;> rfl

theorem finiteUnits_xor_sign {w : Word} {x : Int} (h : finiteUnits w = some x) :
    finiteUnits (w ^^^ 0x80000000#32) = some (-x) := by
  obtain ⟨neg, mag, hu, rfl⟩ := finiteUnits_eq_some.1 h
  exact finiteUnits_eq_some.2 ⟨!neg, mag, by rw [unpack_xor_sign, hu, negData], (signedUnits_not neg mag).symm⟩

/-- 1.0 and a zero add up to 1.0, bit for bit. -/
theorem add32_oneWord_zero {z : Word} (hz : finiteUnits z = some 0) : add32 oneWord z = oneWord := by
  obtain ⟨neg, mag, hu, hmag⟩ := finiteUnits_eq_some.1 hz
  obtain rfl := signedUnits_eq_zero.1 hmag.symm
  rw [add32, hu]
  cases neg <;> decide

/-- The all-pass stage on 1.0 over an empty line stores 1.0 and answers minus the gain (R65). -/
theorem allpass_impulse {g : Word} {gu : Int} (hg : finiteUnits g = some gu) :
    allpassStored oneWord zeroWord g = oneWord ∧
    finiteUnits (allpassOutput zeroWord g oneWord) = some (-gu) := by
  refine ⟨add32_oneWord_zero (finiteUnits_mul32_of_zero hg finiteUnits_zeroWord).1, ?_⟩
  have hround :=
    (addAndSubRoundOnceToNearestEven _ _ 0 gu finiteUnits_zeroWord (finiteUnits_mul32_one hg)).2
  rw [zero_sub] at hround
  exact hround.exact (finiteUnits_xor_sign hg)

/-- PROCESS over an empty line at a whole delay stores its sample with a delayed sample of +0.0 (R67). -/
theorem exec_process_of_empty_line {s : State} {k : Nat} (h : EngineOk s) (hv : s.valid = true)
    (hempty : ∀ i, i < s.capacity.toNat → Memory.read s.buffer i = zeroWord) (hk : k ≤ s.capacity.toNat)
    (hdelay : smoothStep s.currentDelay s.targetDelay s.smoothingFactor = i2f k) (x : Word) :
    exec (.process x) s = .next (storedState x zeroWord (smoothParameters s)) := by
  obtain ⟨p, hp, h0, -, hexec⟩ := h.exec_process hv x
  have hwhole := readPosition_of_whole h.cursor_lt s.capacity.isLt hk
    (finiteUnits_i2f (hk.trans s.capacity.isLt.le))
  rw [hdelay, hwhole] at hp
  have hdelayed : interpolate (Memory.read s.buffer p.i0) (Memory.read s.buffer p.i1) p.f = zeroWord := by
    rw [hempty _ h0, ← Option.some.inj hp]
    exact interpolate_zeroWord _ _
  rw [hexec, hdelayed]

/-- Settles O43: the delayed sample is +0.0, so the stage stores the impulse and answers `0 - g`. -/
theorem impulseAnswersMinusTheGain : Obligations.ImpulseAnswersMinusTheGain := by
  intro s cap k g hwf hk hle hcap
  have hpos := hk.trans hle
  have hcap24 := Config.lt_two_pow_of_le_maxCapacity hcap
  have hcapacity : (newEngine cap (i2f k) g s).capacity.toNat = cap := toNat_ofNat24 hcap24
  have hinRange : InRange zeroWord (i2f cap) (i2f k) := inRange_of_finiteUnits finiteUnits_zeroWord
    (finiteUnits_i2f (hle.trans hcap24.le)) (finiteUnits_i2f hcap24.le) (by omega) (by omega)
  have hprocess := exec_process_of_empty_line (s := respond .ok 0#32 (newEngine cap (i2f k) g s))
    { engineOk_newEngine hpos hcap (i2f k) g s with } rfl
    (fun i hi => (Memory.read_zeroBelow s.buffer cap i).trans (if_pos (hcapacity ▸ hi))) (hcapacity.symm ▸ hle)
    ((smoothStep_self _ _).trans (clamp_of_inRange hinRange)) oneWord
  obtain ⟨gu, hgu, -, -⟩ := finiteUnits_of_inRange (by decide : finiteUnits minusOneWord = some (-2 ^ 149))
    finiteUnits_oneWord (inRange_clamp (x := g) (by decide))
  obtain ⟨hstored, houtput⟩ := allpass_impulse hgu
  have hgain : (smoothParameters (respond .ok 0#32 (newEngine cap (i2f k) g s))).currentGain =
      clamp g minusOneWord oneWord := smoothStep_self _ _
  refine ⟨_, _, execAll_cons_eq_next.2 ⟨_, exec_create_of_good_capacity hpos hcap (i2f k) g s,
    execAll_cons_eq_next.2 ⟨_, hprocess, rfl⟩⟩, ?slot, storedState_rsp _ _ _, ?value⟩
  case slot =>
    refine (read_storedState (Memory.wf_zeroBelow hwf cap) oneWord zeroWord 0).trans ((if_pos rfl).trans ?_)
    rw [hgain, hstored]
    rfl
  case value =>
    rw [hgain, hstored]
    exact (eq32_of_finiteUnits houtput (finiteUnits_xor_sign hgu)).trans (decide_eq_true rfl)

end Sys2Proof.Machine
end

section
/-! PROOFS. A block of samples on the port (R57, R66): one transaction per sample runs the samples in order. -/

namespace Sys2Proof.Machine

variable {s p t : State}

/-- A word offered and its response taken are two edges: the command runs, and its response is delivered (R48). -/
theorem runSteps_transaction {w : Command} {i : Instr} {r : Response} {rest : List PortIn} {n : Nat}
    (hrsp : s.rsp = none) (hinputs : s.inputs = transaction w ++ rest) (hdecode : decode w = .ok i)
    (hexec : exec i s.sampled = .next t) (hr : t.rsp = some r) :
    runSteps (n + 2) s = runSteps n (deliver r t.sampled) := by
  have hpins : s.pins = PortIn.offer w := by rw [State.pins, hinputs]; rfl
  have haccept : s.portEvent = .accept w := by
    rw [portEvent_of_offer (by rw [hpins]; rfl) hrsp (by rw [hpins]; rfl), hpins]
    rfl
  obtain ⟨hkept, -, -⟩ := exec_answers hexec
  have htaken : t.pins = PortIn.take := by rw [State.pins, hkept, State.sampled_inputs, hinputs]; rfl
  have hdeliver : t.portEvent = .deliver r := by simp [State.portEvent, htaken, hr, PortIn.take]
  rw [runSteps_succ, step_of_accept haccept hdecode, hexec, thenRun, runSteps_succ, step_of_deliver hdeliver, thenRun]

/-- The transaction of one sample. -/
theorem runSteps_process {x : Word} {r : Response} {xs : List Word} (hrsp : s.rsp = none)
    (hinputs : s.inputs = transactions (processBlockWords (x :: xs)))
    (hexec : exec (.process x) s.sampled = .next t) (hr : t.rsp = some r) :
    runSteps (2 * (x :: xs).length) s = runSteps (2 * xs.length) (deliver r t.sampled) :=
  runSteps_transaction hrsp hinputs (decodeOfEncodeIsTheCommand (.process x) rfl) hexec hr

/-- The inputs left after the first transaction of a block. -/
theorem inputs_tail_tail_of_block {x : Word} {xs : List Word}
    (h : s.inputs = transactions (processBlockWords (x :: xs))) :
    s.inputs.tail.tail = transactions (processBlockWords xs) := by
  rw [h]
  rfl

/-- Two states with one engine differ in their ports only. -/
theorem exists_port_of_engineOnly (h : p.engineOnly = s.engineOnly) :
    ∃ r pins record, p = { s with rsp := r, inputs := pins, delivered := record } :=
  ⟨p.rsp, p.inputs, p.delivered, congrArg
    (fun e : State => { e with rsp := p.rsp, inputs := p.inputs, delivered := p.delivered }) h⟩

/-- PROCESS does not read the port: in two states with one engine it answers the same and leaves one engine. -/
theorem exec_process_of_engineOnly (h : p.engineOnly = s.engineOnly) (hok : EngineOk s) (hv : s.valid = true)
    (x : Word) :
    ∃ t u y, exec (.process x) s = .next t ∧ exec (.process x) p = .next u ∧ u.engineOnly = t.engineOnly ∧
      t.valid = true ∧ t.rsp = some (responseWord .ok y) ∧ u.rsp = some (responseWord .ok y) := by
  obtain ⟨r, pins, record, rfl⟩ := exists_port_of_engineOnly h
  obtain ⟨i, hi, h0, h1, hs⟩ := hok.exec_process hv x
  have hp := execProcess_of_delayedSample (x := x) (s := { s with rsp := r, inputs := pins, delivered := record })
    hv hok.cursor_lt (delayedSample_of_position hi h0 h1)
  exact ⟨_, _, _, hs, hp, rfl, hv, storedState_rsp _ _ _, storedState_rsp _ _ _⟩

/-- Without an engine a block answers NO_ENGINE for each sample and leaves the engine's state. -/
theorem runSteps_block_of_no_engine {xs : List Word} (hv : s.valid = false) (hrsp : s.rsp = none)
    (hinputs : s.inputs = transactions (processBlockWords xs)) :
    ∃ t, runSteps (2 * xs.length) s = .next t ∧ t.engineOnly = s.engineOnly ∧
      t.delivered = s.delivered ++ List.replicate xs.length (responseWord .noEngine 0#32) := by
  induction xs generalizing s with
  | nil => exact ⟨s, rfl, rfl, (List.append_nil _).symm⟩
  | cons x xs ih =>
    obtain ⟨t, hrun, hengine, hdelivered⟩ := ih
      (s := deliver (responseWord .noEngine 0#32) (raise .noEngine s.sampled).sampled)
      hv rfl (inputs_tail_tail_of_block hinputs)
    refine ⟨t, ?_, hengine, ?_⟩
    · rwa [runSteps_process hrsp hinputs (execProcess_of_no_engine x hv) rfl]
    · rw [hdelivered, List.length_cons, List.replicate_succ, deliver_delivered, List.append_assoc]
      rfl

/-- With an engine a block answers what the samples in order answer, and leaves the engine they leave. -/
theorem runSteps_block_of_engine {xs : List Word} (h : Inv s) (hv : s.valid = true)
    (hsame : p.engineOnly = s.engineOnly) (hrsp : p.rsp = none)
    (hinputs : p.inputs = transactions (processBlockWords xs)) :
    ∃ (t u : State) (ys : List Word), runSteps (2 * xs.length) p = .next t ∧
      execAll (xs.map .process) s = .next u ∧ t.engineOnly = u.engineOnly ∧ ys.length = xs.length ∧
      t.delivered = p.delivered ++ ys.map (responseWord .ok) ∧
      ∀ k y, ys[k]? = some y →
        ∃ v, execAll ((xs.take (k + 1)).map .process) s = .next v ∧ v.rsp = some (responseWord .ok y) := by
  induction xs generalizing s p with
  | nil => exact ⟨p, s, [], rfl, rfl, hsame, rfl, (List.append_nil _).symm, fun k y hy => by simp at hy⟩
  | cons x xs ih =>
    obtain ⟨s', p', y, hs, hp, hengine, hv', hanswer, hanswer'⟩ :=
      exec_process_of_engineOnly (p := p.sampled) hsame (h.engine hv) hv x
    obtain ⟨hpins, hrecord, -⟩ := exec_answers hp
    have hrest : p'.inputs.tail = transactions (processBlockWords xs) := by
      rw [hpins]
      exact inputs_tail_tail_of_block hinputs
    obtain ⟨t, u, ys, hrun, hall, htu, hlen, hdelivered, hsteps⟩ :=
      ih (h.exec hs) hv' (p := deliver (responseWord .ok y) p'.sampled) hengine rfl hrest
    refine ⟨t, u, y :: ys, (runSteps_process hrsp hinputs hp hanswer').trans hrun,
      execAll_cons_eq_next.2 ⟨s', hs, hall⟩, htu, congrArg Nat.succ hlen, ?record, fun k z hz => ?answer⟩
    case record =>
      rw [hdelivered, deliver_delivered, State.sampled_delivered, hrecord, List.append_assoc]
      rfl
    case answer =>
      cases k with
      | zero =>
        obtain rfl : y = z := Option.some.inj hz
        exact ⟨s', execAll_cons_eq_next.2 ⟨s', hs, rfl⟩, hanswer⟩
      | succ k =>
        obtain ⟨v, hall', hr⟩ := hsteps k z hz
        exact ⟨v, execAll_cons_eq_next.2 ⟨s', hs, hall'⟩, hr⟩

/-- Settles O50: each transaction runs one PROCESS, with an engine or without. -/
theorem blockEqualsItsSamplesInOrder : Obligations.BlockEqualsItsSamplesInOrder :=
  ⟨fun _ _ hv hrsp => runSteps_block_of_no_engine hv hrsp rfl,
    fun _ _ h hv hrsp => runSteps_block_of_engine h hv rfl hrsp rfl⟩

end Sys2Proof.Machine
end

section
/-! PROOFS. The setters (R72 to R75): one lemma for what they share, then the register and the range of each. -/

namespace Sys2Proof.Machine

/-! ### The word form of a command that uses only `A` -/

/-- `B` and `cap` of a legal word are 0 unless its opcode is CREATE's (R51, R53). -/
theorem oneOperandFields_of_not_illegalWord {w : Command} {op : BitVec 4} (hlegal : ¬ IllegalWord w)
    (hop : wordOp w = op.toNat) (hne : op.toNat ≠ 1) : OneOperandFields w op (BitVec.ofNat 32 (wordA w)) := by
  unfold IllegalWord at hlegal
  have hcap : wordCap w = 0 := by omega
  have hb : wordB w = 0 := by omega
  exact ⟨opField_eq_iff.2 hop, capField_eq_iff.2 hcap, bField_eq_iff.2 hb, (ofNat_wordA w).symm⟩

theorem wordRuns_setDelay : WordRuns 3 (fun w => .setDelay (BitVec.ofNat 32 (wordA w))) :=
  wordRuns_of_hasFields fun _ hlegal hop =>
    oneOperandFields_of_not_illegalWord (op := 0x3#4) hlegal hop (by decide)

theorem wordRuns_setGain : WordRuns 4 (fun w => .setGain (BitVec.ofNat 32 (wordA w))) :=
  wordRuns_of_hasFields fun _ hlegal hop =>
    oneOperandFields_of_not_illegalWord (op := 0x4#4) hlegal hop (by decide)

theorem wordRuns_setSmoothing : WordRuns 5 (fun w => .setSmoothing (BitVec.ofNat 32 (wordA w))) :=
  wordRuns_of_hasFields fun _ hlegal hop =>
    oneOperandFields_of_not_illegalWord (op := 0x5#4) hlegal hop (by decide)

/-! ### One setter -/

section

variable {write write' : State → State} {s : State}

theorem setParameter_of_no_engine (hv : s.valid = false) : setParameter write s = raise .noEngine s := by
  simp [setParameter, hv]

theorem setParameter_of_engine (hv : s.valid = true) :
    setParameter write s = respond .ok 0#32 (write s) := by
  simp [setParameter, hv]

/-! ### Two setters in a row -/

/-- The second of two setters finds an engine exactly when the first did, and its answer replaces the first's. -/
theorem setParameter_setParameter (hvalid : (write s).valid = s.valid) :
    setParameter write' (setParameter write s) =
      setParameter (fun t => write' (respond .ok 0#32 (write t))) s := by
  cases hv : s.valid with
  | false =>
    rw [setParameter_of_no_engine hv, setParameter_of_no_engine hv]
    exact setParameter_of_no_engine hv
  | true =>
    rw [setParameter_of_engine hv, setParameter_of_engine hv]
    exact setParameter_of_engine (hvalid.trans hv)

/-- Setters commute when their writes do, the first answer being on offer. -/
theorem setParameter_comm (hvalid : (write s).valid = s.valid) (hvalid' : (write' s).valid = s.valid)
    (h : write' (respond .ok 0#32 (write s)) = write (respond .ok 0#32 (write' s))) :
    setParameter write' (setParameter write s) = setParameter write (setParameter write' s) := by
  rw [setParameter_setParameter hvalid, setParameter_setParameter hvalid', setParameter, setParameter, h]

/-- The last setter wins when its write covers the first's. -/
theorem setParameter_overwrite (hvalid : (write s).valid = s.valid)
    (h : respond .ok 0#32 (write' (respond .ok 0#32 (write s))) = respond .ok 0#32 (write' s)) :
    setParameter write' (setParameter write s) = setParameter write' s := by
  rw [setParameter_setParameter hvalid, setParameter, setParameter, h]

end

/-! ### The three setters -/

theorem exec_setDelay (d : Word) (s : State) : exec (.setDelay d) s =
    .next (setParameter (fun t => t.setTargetDelay (clampDelay t.capacity.toNat d)) s) := rfl

theorem exec_setGain (g : Word) (s : State) : exec (.setGain g) s =
    .next (setParameter (fun t => t.setTargetGain (clampGain g)) s) := rfl

theorem exec_setSmoothing (f : Word) (s : State) : exec (.setSmoothing f) s =
    .next (setParameter (fun t => t.setSmoothingFactor (clampSmoothing f)) s) := rfl

/-- Settles O18: the one write is that of `target_delay`, through `clampDelay`. -/
theorem setDelayWritesTheTargetOnly : Obligations.SetDelayWritesTheTargetOnly :=
  ⟨wordRuns_setDelay, fun s d hv => (exec_setDelay d s).trans (congrArg _ (setParameter_of_no_engine hv)),
    fun s d hv => (exec_setDelay d s).trans (congrArg _ (setParameter_of_engine hv))⟩

/-- Settles O19: the one write is that of `target_gain`, through `clampGain`. -/
theorem setGainWritesTheTargetOnly : Obligations.SetGainWritesTheTargetOnly :=
  ⟨wordRuns_setGain, fun s g hv => (exec_setGain g s).trans (congrArg _ (setParameter_of_no_engine hv)),
    fun s g hv => (exec_setGain g s).trans (congrArg _ (setParameter_of_engine hv))⟩

/-- Settles O20: the one write is that of `smoothing_factor`, through `clampSmoothing`. -/
theorem setSmoothingWritesTheFactorOnly : Obligations.SetSmoothingWritesTheFactorOnly :=
  ⟨wordRuns_setSmoothing, fun s f hv => (exec_setSmoothing f s).trans (congrArg _ (setParameter_of_no_engine hv)),
    fun s f hv => (exec_setSmoothing f s).trans (congrArg _ (setParameter_of_engine hv))⟩

/-- Settles O21: the setters write different registers, and SET_DELAY's bound `capacity` is none of them. -/
theorem settersCommuteAndTheLastWriteWins : Obligations.SettersCommuteAndTheLastWriteWins := by
  intro s d d' g g' f f'
  simp only [exec_setDelay, exec_setGain, exec_setSmoothing, thenRun]
  refine ⟨congrArg _ (setParameter_comm ?_ ?_ ?_), congrArg _ (setParameter_comm ?_ ?_ ?_),
    congrArg _ (setParameter_comm ?_ ?_ ?_), congrArg _ (setParameter_overwrite ?_ ?_),
    congrArg _ (setParameter_overwrite ?_ ?_), congrArg _ (setParameter_overwrite ?_ ?_)⟩ <;> rfl

end Sys2Proof.Machine
end

section
/-! PROOFS. Exceptions (R78, R80 to R84): the AFE never stops, each accepted word answers one status, and nothing but a
command or a reset changes the engine. -/

namespace Sys2Proof.Machine

variable {s : State}

/-! ### No stop -/

/-- Settles O46: a command in a state with the invariant goes on, and every other edge does in any state. -/
theorem invariantStatesNeverStop : Obligations.InvariantStatesNeverStop := fun _ h => h.exists_step

/-! ### The status of a command other than CREATE -/

/-- Every command but CREATE needs an engine (R78). -/
theorem exec_of_no_engine {i : Instr} (hcreate : ∀ cap d g, i ≠ .create cap d g) (hv : s.valid = false) :
    exec i s = .next (raise .noEngine s) := by
  cases i with
  | create cap d g => exact absurd rfl (hcreate cap d g)
  | process x => exact execProcess_of_no_engine x hv
  | setDelay d => exact congrArg _ (setParameter_of_no_engine hv)
  | setGain g => exact congrArg _ (setParameter_of_no_engine hv)
  | setSmoothing f => exact congrArg _ (setParameter_of_no_engine hv)
  | destroy => exact exec_destroy_of_no_engine hv

/-- Settles O23: without an engine NO_ENGINE is raised, which writes the response alone. -/
theorem noEngineWritesNothing : Obligations.NoEngineWritesNothing := fun _ _ => exec_of_no_engine

theorem setParameter_rsp_of_engine {write : State → State} (hv : s.valid = true) :
    (setParameter write s).rsp = some (responseWord .ok 0#32) := by
  rw [setParameter_of_engine hv, respond_rsp]

/-- With a live engine every command but CREATE answers OK (R60, R80). -/
theorem Inv.exec_answers_ok (h : Inv s) (hv : s.valid = true) {i : Instr}
    (hcreate : ∀ cap d g, i ≠ .create cap d g) :
    ∃ t data, Machine.exec i s = .next t ∧ t.rsp = some (responseWord .ok data) := by
  cases i with
  | create cap d g => exact absurd rfl (hcreate cap d g)
  | process x =>
    obtain ⟨p, -, -, -, hexec⟩ := (h.engine hv).exec_process hv x
    exact ⟨_, _, hexec, storedState_rsp _ _ _⟩
  | setDelay d => exact ⟨_, _, exec_setDelay d s, setParameter_rsp_of_engine hv⟩
  | setGain g => exact ⟨_, _, exec_setGain g s, setParameter_rsp_of_engine hv⟩
  | setSmoothing f => exact ⟨_, _, exec_setSmoothing f s, setParameter_rsp_of_engine hv⟩
  | destroy => exact ⟨_, _, exec_destroy_of_engine hv, rfl⟩

/-- Settles O24: PROCESS reads within the buffer (R31), and a setter writes its register whatever the operand. -/
theorem noErrorAfterConstruction : Obligations.NoErrorAfterConstruction := fun s x h hv =>
  ⟨h.exec_answers_ok hv nofun, ⟨_, exec_setDelay x s, setParameter_rsp_of_engine hv⟩,
    ⟨_, exec_setGain x s, setParameter_rsp_of_engine hv⟩, ⟨_, exec_setSmoothing x s, setParameter_rsp_of_engine hv⟩⟩

/-! ### The priority of the statuses -/

/-- A legal word whose opcode is not CREATE's decodes to another command. -/
theorem exists_decode_ne_create {w : Command} (hlegal : ¬ IllegalWord w) (hop : wordOp w ≠ 1) :
    ∃ i, decode w = .ok i ∧ ∀ cap d g, i ≠ .create cap d g := by
  obtain ⟨i, hdecode⟩ := exists_decode_of_not_illegalWord hlegal
  refine ⟨i, hdecode, ?_⟩
  rintro cap d g rfl
  obtain ⟨-, hopField, -⟩ := hasFields_of_decode hdecode
  exact hop (opField_eq_iff.1 hopField)

/-- Settles O15: legality is looked at first, then CREATE looks at its capacity and every other command at `valid`. -/
theorem statusFollowsThePriority : Obligations.StatusFollowsThePriority := by
  intro s w h haccept
  by_cases hillegal : IllegalWord w
  · exact ⟨_, _, (illegalWordsAnswerIllegalCommand w).2 hillegal s haccept, rfl,
      fun _ => responseStatus_responseWord .illegalCommand _, absurd hillegal, absurd hillegal⟩
  by_cases hop : wordOp w = 1
  · have hstep := (wordRuns_create s w haccept hop).2 hillegal
    by_cases hbad : wordCap w = 0 ∨ Config.maxCapacity < wordCap w
    · exact ⟨_, _, hstep.trans (exec_create_of_bad_capacity hbad _ _ _), rfl, fun hill => absurd hill hillegal,
        fun _ _ => ⟨fun _ => responseStatus_responseWord .invalidCapacity _, by omega⟩,
        fun _ hne => absurd hop hne⟩
    · exact ⟨_, _, hstep.trans (exec_create_of_good_capacity (by omega) (by omega) _ _ _), rfl,
        fun hill => absurd hill hillegal,
        fun _ _ => ⟨fun hbad' => absurd hbad' hbad, fun _ _ => responseStatus_responseWord .ok _⟩,
        fun _ hne => absurd hop hne⟩
  · obtain ⟨i, hdecode, hcreate⟩ := exists_decode_ne_create hillegal hop
    have hstep := step_of_accept haccept hdecode
    cases hv : s.valid with
    | false =>
      exact ⟨_, _, hstep.trans (exec_of_no_engine hcreate hv), rfl, fun hill => absurd hill hillegal,
        fun _ h1 => absurd h1 hop, fun _ _ => ⟨fun _ => responseStatus_responseWord .noEngine _, nofun⟩⟩
    | true =>
      obtain ⟨t, data, hexec, hrsp⟩ := h.sampled.exec_answers_ok hv hcreate
      exact ⟨t, _, hstep.trans hexec, hrsp, fun hill => absurd hill hillegal,
        fun _ h1 => absurd h1 hop, fun _ _ => ⟨nofun, fun _ => responseStatus_responseWord .ok _⟩⟩

/-! ### What changes the engine -/

@[simp] theorem sampled_engineOnly (s : State) : s.sampled.engineOnly = s.engineOnly := rfl

@[simp] theorem deliver_engineOnly (r : Response) (s : State) : (deliver r s).engineOnly = s.engineOnly := rfl

theorem portEvent_of_idle (hrst : s.pins.rst = false) (hrsp : s.rsp = none) (hidle : s.pins.cmdValid = false) :
    s.portEvent = .nothing := by
  simp [State.portEvent, hrst, hrsp, hidle]

/-- Settles O13: of the things an edge can do, a delivery and an idle edge touch the port alone. -/
theorem onlyACommandOrAResetChangesTheEngine : Obligations.OnlyACommandOrAResetChangesTheEngine := by
  refine ⟨fun s t hstep hne => ?_,
    fun s hrst hrsp hidle => ⟨step_of_nothing (portEvent_of_idle hrst hrsp hidle), hrsp, sampled_engineOnly s⟩⟩
  rcases step_cases hstep with ⟨hp, -⟩ | ⟨r, -, rfl⟩ | ⟨w, i, hp, -, -⟩ | ⟨w, e, hp, -, -⟩ | ⟨-, rfl⟩
  · exact .inl hp
  · exact absurd (deliver_engineOnly r s.sampled) hne
  · exact .inr ⟨w, hp⟩
  · exact .inr ⟨w, hp⟩
  · exact absurd (sampled_engineOnly s) hne

end Sys2Proof.Machine
end

section
/-! PROOFS. Reset and boot (R92 to R95): a reset edge, the state it leaves, and the first CREATE. -/

namespace Sys2Proof.Machine

variable {s : State}

/-! ### Reset -/

theorem portEvent_of_rst (hrst : s.pins.rst = true) : s.portEvent = .reset := by
  rw [State.portEvent, if_pos hrst]

theorem step_of_reset (h : s.portEvent = .reset) : step s = .next (hardwareReset s.sampled) := by
  simp [step, h]

/-- Reset hides both sides of the port (R92). -/
theorem port_closed_of_rst (hrst : s.pins.rst = true) : s.cmdReady = false ∧ s.rspValid = false := by
  simp [State.cmdReady, State.rspValid, hrst]

/-- With nothing outstanding the AFE takes a command at any edge without reset (R48). -/
theorem cmdReady_of_no_rsp (hrst : s.pins.rst = false) (hrsp : s.rsp = none) : s.cmdReady = true :=
  have ⟨hready, _⟩ := oneCommandIsOutstanding.2 s hrst hrsp
  hready

/-- Settles O11: the edge ends in the hardware reset of the sampled state, which keeps the record and the inputs. -/
theorem resetEdgeDropsTheEngineAndTheResponse : Obligations.ResetEdgeDropsTheEngineAndTheResponse := by
  intro s hrst
  obtain ⟨hready, hvalid⟩ := port_closed_of_rst hrst
  exact ⟨hready, hvalid, hardwareReset s.sampled, step_of_reset (portEvent_of_rst hrst), rfl, rfl, rfl, rfl,
    fun hnext => cmdReady_of_no_rsp hnext rfl⟩

/-- Settles O12: the reset state has no engine, so every command but CREATE raises NO_ENGINE. -/
theorem resetLeavesNoEngine : Obligations.ResetLeavesNoEngine :=
  ⟨rfl, cmdReady_of_no_rsp rfl rfl, fun _ hcreate => exec_of_no_engine hcreate State.reset_valid⟩

/-! ### Boot -/

/-- CREATE of a legal capacity is a command the word format can carry. -/
theorem wellFormed_create {cap : Nat} (hle : cap ≤ Config.maxCapacity) (d g : Word) :
    (Instr.create cap d g).wellFormed = true :=
  decide_eq_true (Config.lt_two_pow_of_le_maxCapacity hle)

/-- One transaction with a legal CREATE delivers its OK and leaves the new engine, whatever was live before. -/
theorem runSteps_create {cap : Nat} {d g : Word} {rest : List PortIn} (hpos : 1 ≤ cap)
    (hle : cap ≤ Config.maxCapacity) (hrsp : s.rsp = none)
    (hinputs : s.inputs = transaction (encode (.create cap d g)) ++ rest) :
    runSteps 2 s = .next
      (deliver (responseWord .ok 0#32) (respond .ok 0#32 (newEngine cap d g s.sampled)).sampled) :=
  runSteps_transaction (n := 0) hrsp hinputs (decodeOfEncodeIsTheCommand _ (wellFormed_create hle d g))
    (exec_create_of_good_capacity hpos hle d g s.sampled) rfl

/-- Settles O51: the transaction leaves CREATE's engine and an empty port, which is ready again. -/
theorem bootWithOneCreate : Obligations.BootWithOneCreate := fun _ _ _ hpos hle =>
  ⟨_, runSteps_create (rest := []) hpos hle rfl rfl, rfl,
    toNat_ofNat24 (Config.lt_two_pow_of_le_maxCapacity hle), rfl, cmdReady_of_no_rsp rfl rfl⟩

end Sys2Proof.Machine
end
